-- ==== Sys2Proof/Word.lean ====
section
/-! DEFINITION. The values of the machine. A value of a cell, of the accumulator or of a port is a mathematical integer, `Int`
(spec/00_scope.md rule R9: "no value has a bit width"); the value domain D of R8 is a predicate on integers. DESIGN CHOICE,
log 1: D is an invariant of the state (`Machine.Inv`), not a restriction of the type. -/

namespace Sys2Proof

/-- The value domain `D` of R8: the integers −999..999, with one zero. -/
abbrev InDomain (v : Int) : Prop := -999 ≤ v ∧ v ≤ 999

end Sys2Proof
end

