-- ==== Sys2Proof/Config.lean ====
section
/-! DEFINITION. The parameters of the hardware, with the values spec/00_scope.md rule R7 fixes. The points R7 leaves
open (ENTRY_PC, CELL_CARRIER, IN_RANGE, PORT_REALISATION) are no constants: the entry address is START's argument, the
values the input source delivers are any integers, and no rule depends on the other two. No instruction of this machine
leaves a result open, so there is no opaque free value here. -/

namespace Sys2Proof.Config

/-- `MEM_CELLS`: the number of memory cells, addresses 0..99 (R7). -/
@[simp] abbrev memCells : Nat := 100

/-- `MODULUS`: the reduction modulus, 10^3 (R7). -/
@[simp] abbrev modulus : Int := 1000

/-- The largest instruction word, three decimal digits (R61). -/
@[simp] abbrev wordMax : Int := 999

/-- `OPCODE_SCALE`: word = opcode × 100 + address (R7). -/
@[simp] abbrev opcodeScale : Nat := 100

/-- `MARKER_CELL`: the cell START writes (R7, R48). -/
@[simp] abbrev markerCell : Nat := 0

/-- `MARKER_VALUE`: what START writes there (R7, R48). -/
@[simp] abbrev markerValue : Int := 1

/-- `RETURN_CELL`: the cell every JMP writes (R7, R145). -/
@[simp] abbrev returnCell : Nat := 99

/-- `JMP_TAG`: what JMP adds to the advanced pc (R7, R145). -/
@[simp] abbrev jmpTag : Int := 800

/-- `ACC_RESET`: the accumulator at the start of every run (R7, R21). -/
@[simp] abbrev accReset : Int := 0

/-- The entry address of the classic convention (R193: "defaults conventionally to 1"). DESIGN CHOICE, log 3: what `pc`
holds at power-on, where the spec leaves it unspecified. -/
@[simp] abbrev classicEntry : Nat := 1

/-- The value of a cell the program does not use (R196: "cells the program does not use are conventionally 0"). Used
only by `State.withFetchWord`, which stands for a host's load (log 4). -/
@[simp] abbrev unusedCell : Int := 0

end Sys2Proof.Config
end

