-- ==== Sys2Proof/Machine/Arith.lean ====
section
/-! DEFINITION. The arithmetic unit: exact integers and one reduction (spec/00_scope.md rules R9, R10;
spec/42_accumulator.md rules R111, R112; spec/43_shift.md rule R131). -/

namespace Sys2Proof.Machine

/-- `tdiv(a, b)`: the quotient truncated toward zero (R9). -/
def tdiv (a b : Int) : Int := Int.tdiv a b

/-- `tmod(a, b) = a − b × tdiv(a, b)`: zero or with the sign of `a` (R9). -/
def tmod (a b : Int) : Int := Int.tmod a b

/-- `red(v) = tmod(v, 1000)`: the symmetric remainder, not the floored one (R10). -/
def red (v : Int) : Int := tmod v Config.modulus

/-- ADD's exact sum (R111). -/
def exactSum (acc m : Int) : Int := acc + m

/-- SUB's exact difference, accumulator minus memory (R112). -/
def exactDifference (acc m : Int) : Int := acc - m

/-- SFT's body: `tdiv(acc × 10^L, 10^R)` on exact integers, with no reduction before the division (R131). -/
def digitShift (l r : Nat) (acc : Int) : Int := tdiv (acc * 10 ^ l) (10 ^ r)

end Sys2Proof.Machine
end

