-- ==== Sys2Proof/Syntax.lean ====
section
/-! DEFINITION. The ten instructions (spec/30_encoding.md rule R65), one constructor per row of spec/opcode_table.json. -/

namespace Sys2Proof

/-- The instructions. `aa` is the two-digit address field (R62); `l` and `r` are SFT's two counts (R63). -/
inductive Instr where
  /-- INP `aa` (R102). -/
  | inp (aa : Nat)
  /-- CLA `aa` (R110). -/
  | cla (aa : Nat)
  /-- ADD `aa` (R111). -/
  | add (aa : Nat)
  /-- TAC `aa` (R140). -/
  | tac (aa : Nat)
  /-- SFT `l r` (R131). -/
  | sft (l r : Nat)
  /-- OUT `aa` (R104). -/
  | out (aa : Nat)
  /-- STO `aa` (R114). -/
  | sto (aa : Nat)
  /-- SUB `aa` (R112). -/
  | sub (aa : Nat)
  /-- JMP `aa` (R144). -/
  | jmp (aa : Nat)
  /-- HRS `aa` (R147). -/
  | hrs (aa : Nat)
  deriving DecidableEq, Repr

end Sys2Proof
end

