-- ==== Sys2Proof/WellFormed.lean ====
section
/-! DEFINITION. Which instruction terms the format D3 can write (spec/30_encoding.md rules R62, R63). -/

namespace Sys2Proof

/-- The field ranges: an address field is 0..99 (R62), a shift count is 0..9 (R63). Every value in range is legal for
every instruction (R64). -/
def wellFormed : Instr → Bool
  | .inp aa => decide (aa ≤ 99)
  | .cla aa => decide (aa ≤ 99)
  | .add aa => decide (aa ≤ 99)
  | .tac aa => decide (aa ≤ 99)
  | .sft l r => decide (l ≤ 9) && decide (r ≤ 9)
  | .out aa => decide (aa ≤ 99)
  | .sto aa => decide (aa ≤ 99)
  | .sub aa => decide (aa ≤ 99)
  | .jmp aa => decide (aa ≤ 99)
  | .hrs aa => decide (aa ≤ 99)

/-- A well-formed instruction, as a proposition. -/
abbrev WellFormed (i : Instr) : Prop := wellFormed i = true

end Sys2Proof
end

