-- ==== Sys2Proof/Decode.lean ====
section
/-! DEFINITION. Decoding a word (spec/30_encoding.md rules R61 to R68) and, after it, encoding an instruction. The format is
defined on the integer value of the cell (R61), so the decoder reads an integer; it is total and rejects by name. -/

namespace Sys2Proof

/-- Why a word is no instruction. -/
inductive DecodeReject where
  /-- The word lies outside 0..999 (R68); the machine raises F1 InvalidOpcode. -/
  | invalidOpcode (w : Int)
  deriving DecidableEq, Repr

/-- The decimal digits of `w` from position `hi` down to `lo`, position 0 being the units (R9, `dig[hi:lo]`). -/
def digitSlice (hi lo w : Nat) : Nat := w / 10 ^ lo % 10 ^ (hi - lo + 1)

/-- `opcode = w div 100` (R62), the hundreds digit (R61). -/
def opcodeField (w : Nat) : Nat := w / Config.opcodeScale

/-- `address = w mod 100` (R62), the tens and units digits. -/
def addressField (w : Nat) : Nat := w % Config.opcodeScale

/-- SFT's left count `L = address div 10` (R63). -/
def leftField (w : Nat) : Nat := addressField w / 10

/-- SFT's right count `R = address mod 10` (R63). -/
def rightField (w : Nat) : Nat := addressField w % 10

/-- Decode (R83, R62, R65): a word outside 0..999 is rejected, every other word is one of the ten instructions. -/
def decode (w : Int) : Except DecodeReject Instr :=
  if w < 0 ∨ Config.wordMax < w then .error (.invalidOpcode w)
  else
    let n := w.toNat
    match opcodeField n with
    | 0 => .ok (.inp (addressField n))
    | 1 => .ok (.cla (addressField n))
    | 2 => .ok (.add (addressField n))
    | 3 => .ok (.tac (addressField n))
    | 4 => .ok (.sft (leftField n) (rightField n))
    | 5 => .ok (.out (addressField n))
    | 6 => .ok (.sto (addressField n))
    | 7 => .ok (.sub (addressField n))
    | 8 => .ok (.jmp (addressField n))
    | 9 => .ok (.hrs (addressField n))
    | _ => .error (.invalidOpcode w)

/-- The opcode number of an instruction (R65). -/
def Instr.opcode : Instr → Nat
  | .inp _ => 0
  | .cla _ => 1
  | .add _ => 2
  | .tac _ => 3
  | .sft _ _ => 4
  | .out _ => 5
  | .sto _ => 6
  | .sub _ => 7
  | .jmp _ => 8
  | .hrs _ => 9

/-- The address field of an instruction; for SFT the two counts, `10 × L + R` (R63). -/
def Instr.address : Instr → Nat
  | .inp aa => aa
  | .cla aa => aa
  | .add aa => aa
  | .tac aa => aa
  | .sft l r => 10 * l + r
  | .out aa => aa
  | .sto aa => aa
  | .sub aa => aa
  | .jmp aa => aa
  | .hrs aa => aa

/-- The word of an instruction: `opcode × 100 + address` (R61). -/
def encode (i : Instr) : Int := (Config.opcodeScale * i.opcode + i.address : Nat)

/-- The decoder as the host asks it (spec/opcode_table.json, R74): `w` is the word as one number, which is the value of
the cell. Every instruction is one cell long (R60), so `nbits` decides nothing. -/
def decodeTableWord (_nbits w : Nat) : Option Instr :=
  match decode (w : Int) with
  | .ok i => some i
  | .error _ => none

end Sys2Proof
end

