-- ==== Sys2Proof/Machine/State.lean ====
section
/-! DEFINITION. The state of the machine (spec/10_state.md rules R20 to R33), the reasons a step of the model can stop, and
the state at power-on. -/

namespace Sys2Proof.Machine

/-- The memory: the cells that hold a value, as (address, value) pairs with strictly rising addresses below 100
(`Memory.wf`). A cell is a signed three-digit decimal integer, not a byte (R41), so the pairs are not `Host.Cell`. An
address that is not listed is a cell nobody has written: it holds no value (R33; log 2). -/
abbrev Memory := List (Nat × Int)

/-- The one canonical form of a memory: addresses strictly rising, each below 100. -/
abbrev Memory.wf (m : Memory) : Prop :=
  m.Pairwise (fun x y => x.1 < y.1) ∧ ∀ e ∈ m, e.1 < Config.memCells

/-- The five faults of the machine (R160). They are TAKEN: the next state's status records them. -/
inductive FaultCode where
  /-- F1 InvalidOpcode: the fetched word is outside 0..999 (R163). -/
  | invalidOpcode
  /-- F2 StartPcOutOfRange: START with an entry outside 0..99 (R164). -/
  | startPcOutOfRange
  /-- F3 InputFailure: INP's transaction failed (R165). -/
  | inputFailure
  /-- F4 OutputFailure: OUT's transaction failed (R167). -/
  | outputFailure
  /-- F5 PcOutOfRange: a fetch with `pc = 100` (R166). -/
  | pcOutOfRange
  deriving DecidableEq, Repr

/-- The numeric code of a fault (R160, decision D6). -/
def FaultCode.number : FaultCode → Nat
  | .invalidOpcode => 1
  | .startPcOutOfRange => 2
  | .inputFailure => 3
  | .outputFailure => 4
  | .pcOutOfRange => 5

/-- The run status and, when Faulted, the fault record (R28). -/
inductive Status where
  /-- No run has been started since power was applied. -/
  | idle
  /-- A run is in progress. -/
  | running
  /-- The last run ended by executing HRS. -/
  | halted
  /-- The last run ended in a fault: its code, the offending address, and the raw word fetched (none for F2 and F5). -/
  | faulted (code : FaultCode) (fpc : Int) (fword : Option Int)
  deriving DecidableEq, Repr

/-- A port transaction begun and not yet completed (R80, R105, R179; log 6). `p` is the address its instruction was
fetched from, `aa` its address field, `v` the value offered to the output sink. -/
inductive Transaction where
  /-- `In()` of an INP. -/
  | input (p aa : Nat)
  /-- `Out(v)` of an OUT. -/
  | output (p aa : Nat) (v : Int)
  deriving DecidableEq, Repr

/-- One answer of the input source (R100). -/
inductive InAnswer where
  /-- The transaction completes with this integer; it may lie outside D. -/
  | value (v : Int)
  /-- The transaction completes with `fail`. -/
  | fail
  /-- The transaction does not complete in this step (R105). -/
  | delay
  deriving DecidableEq, Repr

/-- One answer of the output sink (R101). -/
inductive OutAnswer where
  /-- The transaction completes: the value has been handed over. -/
  | ok
  /-- The transaction completes with `fail`: nothing has been delivered (R167). -/
  | fail
  /-- The transaction does not complete in this step (R105). -/
  | delay
  deriving DecidableEq, Repr

/-- The host's moves that change the machine, open to it only while the core is not Running (R204). -/
inductive HostMove where
  /-- Write one memory cell. -/
  | write (a : Nat) (v : Int)
  /-- The START event with its entry address (R190). -/
  | start (entry : Int)
  deriving DecidableEq, Repr

/-- The whole state: the four items of R20, the port transaction in progress, and the outside world as plain data. -/
structure State where
  /-- The accumulator (R21). -/
  acc : Int
  /-- The program counter, 0..100 (R24, R26). -/
  pc : Nat
  /-- The 100 cells (R27). -/
  mem : Memory
  /-- The run status and the fault record (R28). -/
  status : Status
  /-- The port transaction the core is held in (R105; log 6). -/
  held : Option Transaction
  /-- What the input source will answer, oldest first; the end of the list means no answer ever comes (R205; log 5). -/
  inputs : List InAnswer
  /-- How many values this run has taken from the input source (R90; log 9). -/
  inputsUsed : Nat
  /-- What the output sink will answer, oldest first; the end of the list means no answer ever comes (R105; log 5). -/
  outAnswers : List OutAnswer
  /-- The run's output history, oldest first; appended to and never read (R32, R101; log 9). -/
  output : List Int
  /-- The host's moves still to come, oldest first (R204; log 7). -/
  hostMoves : List HostMove
  deriving DecidableEq, Repr

/-- The reasons the MODEL stops with a fault. None of them is a fault of the machine (those are `FaultCode`, taken as next
states), and no launched run reaches one of them. -/
inductive Fault where
  /-- Raised by a read (data or fetch) of a cell nobody has written: R33, "a model must treat a run that reads it as
  having no defined result". Safe: the model stops where the hardware goes on with some value (log 2). -/
  | unwrittenCell (a : Nat)
  /-- Raised by a data access of an ill-formed instruction term, whose address field is above 99: no such cell exists and
  no word decodes to it (R42). Safe (log 1). -/
  | noSuchCell (a : Nat)
  deriving DecidableEq, Repr

/-- The reasons the model refuses. -/
inductive Refusal where
  /-- An instruction that has no meaning yet; raised by no arm of exec any more. Safe. -/
  | notModelled (mnemonic : String)
  /-- Raised by START on a memory some cell of which nobody has written (R196, U11: the launch is refused). Safe (log 2). -/
  | imageIncomplete
  /-- Raised by START on a memory of more than 100 cells: one that lists an address above 99, or an address twice (R197,
  U12: the launch is refused). Safe (log 2). -/
  | imageTooLarge
  /-- Raised by START on a memory with a value outside D (R197, U12: the launch is refused). Safe (log 2). -/
  | imageOutsideDomain
  /-- Raised by a host write to an address above 99: there is no such cell (R40, R204). Safe (log 7). -/
  | hostWriteNoSuchCell (a : Nat)
  /-- Raised by a host write of a value outside D (R204: "values of `D`"; R197). Safe (log 7). -/
  | hostWriteOutsideDomain (v : Int)
  deriving DecidableEq, Repr

/-- What a step or a meaning answers. -/
abbrev Result := Host.Outcome State Fault Refusal

/-- Replace the accumulator. -/
def State.setAcc (s : State) (v : Int) : State := { s with acc := v }
/-- Replace the program counter. -/
def State.setPc (s : State) (n : Nat) : State := { s with pc := n }
/-- Replace the memory. -/
def State.setMem (s : State) (m : Memory) : State := { s with mem := m }
/-- Replace the status. -/
def State.setStatus (s : State) (st : Status) : State := { s with status := st }
/-- Replace the transaction in progress. -/
def State.setHeld (s : State) (t : Option Transaction) : State := { s with held := t }
/-- Replace the input source's answers still to come. -/
def State.setInputs (s : State) (l : List InAnswer) : State := { s with inputs := l }
/-- Replace the number of inputs used. -/
def State.setInputsUsed (s : State) (n : Nat) : State := { s with inputsUsed := n }
/-- Replace the output sink's answers still to come. -/
def State.setOutAnswers (s : State) (l : List OutAnswer) : State := { s with outAnswers := l }
/-- Replace the output history. -/
def State.setOutput (s : State) (l : List Int) : State := { s with output := l }
/-- Replace the host's moves still to come. -/
def State.setHostMoves (s : State) (l : List HostMove) : State := { s with hostMoves := l }

/-- The machine when power has been applied and no START has come (R33, R192): Idle, no cell written. The spec leaves
`acc` and `pc` unspecified here; DESIGN CHOICE 0 and 1, log 3. The outside world has nothing to say yet (logs 5, 7). -/
def State.reset : State where
  acc := Config.accReset
  pc := Config.classicEntry
  mem := []
  status := .idle
  held := none
  inputs := []
  inputsUsed := 0
  outAnswers := []
  output := []
  hostMoves := []

end Sys2Proof.Machine
end

