-- ==== Sys2Proof/Machine/Ops.lean ====
section
/-! DEFINITION. The operations every meaning is built from: reading and writing a cell (spec/20_memory.md rules R44, R45),
the advance of the pc and the reduction that ends a step (spec/40_cycle.md rules R84, R86), and taking a fault
(spec/60_exceptions.md rule R161). There is no return from a fault (R169): what follows one is a START, in
Machine/HostMoves.lean. -/

namespace Sys2Proof.Machine

/-- `MemRead(a, 1)` (R44); `none` for a cell nobody has written. -/
def Memory.read : Memory → Nat → Option Int
  | [], _ => none
  | (b, w) :: m, a => if a = b then some w else Memory.read m a

/-- `MemWrite(a, 1, v)` (R45), keeping the addresses rising. -/
def Memory.write : Memory → Nat → Int → Memory
  | [], a, v => [(a, v)]
  | (b, w) :: m, a, v =>
    if a < b then (a, v) :: (b, w) :: m
    else if a = b then (a, v) :: m
    else (b, w) :: Memory.write m a v

/-- Every one of the 100 cells has been written (R196). -/
def Memory.full (m : Memory) : Bool := (List.range Config.memCells).all fun a => (m.read a).isSome

/-- Every value held lies in D (R27). -/
def Memory.inDomain (m : Memory) : Bool := m.all fun e => decide (InDomain e.2)

/-- The memory with every cell nobody has written given the conventional value of an unused cell (R196, R72). Only
`State.withFetchWord` uses it (log 4). -/
def Memory.fillUnused (m : Memory) : Memory :=
  (List.range Config.memCells).map fun a => (a, (m.read a).getD Config.unusedCell)

/-- Read cell `a` of the state and go on with its value (R44). -/
def State.loadThen (s : State) (a : Nat) (k : Int → Result) : Result :=
  if a < Config.memCells then
    match s.mem.read a with
    | some v => k v
    | none => .fault (.unwrittenCell a)
  else .fault (.noSuchCell a)

/-- Write `v` to cell `a` of the state and go on with the state so left (R45). -/
def State.storeThen (s : State) (a : Nat) (v : Int) (k : State → Result) : Result :=
  if a < Config.memCells then k (s.setMem (s.mem.write a v)) else .fault (.noSuchCell a)

/-- Advance: `pc <- p + 1`, not reduced (R84, R26). -/
def State.advance (s : State) : State := s.setPc (s.pc + 1)

/-- The reduction that ends the step of every instruction but HRS: `acc <- red(acc)` (R86). -/
def State.finish (s : State) : Result := .next (s.setAcc (red s.acc))

/-- Taking a fault: `status <- Faulted(code, fpc, fword)`, and the rest of the step, a transaction in progress included,
is over (R161). Nothing else changes. -/
def State.raise (s : State) (code : FaultCode) (fpc : Int) (fword : Option Int) : State :=
  (s.setStatus (.faulted code fpc fword)).setHeld none

end Sys2Proof.Machine
end

