-- ==== Sys2Proof/Machine/HostMoves.lean ====
section
/-! DEFINITION. What the host can do to the core from outside (spec/70_reset_and_hazards.md rules R190 to R199, R204). -/

namespace Sys2Proof.Machine

/-- The effect of START with a valid entry (R190): the marker in cell 0, `acc <- 0`, `pc <- entry`, Running, any earlier
fault record dropped. The other cells stay (R199). The run's output history and its count of inputs begin anew, and no
transaction is in progress (log 9, log 6). -/
def State.startRun (s : State) (entry : Nat) : State :=
  let t := (((s.setMem (s.mem.write Config.markerCell Config.markerValue)).setAcc Config.accReset).setPc entry).setStatus .running
  ((t.setHeld none).setOutput []).setInputsUsed 0

/-- START(entry) (R190): an entry outside 0..99 takes F2 before anything else (R164); a memory that is no valid image (fewer
or more than the 100 cells, or a value outside D) is refused (R196, R197, U11, U12); otherwise the run begins. -/
def State.start (s : State) (entry : Int) : Result :=
  if entry < 0 ∨ 99 < entry then .next (s.raise .startPcOutOfRange entry none)
  else if s.mem.full = false then .refused .imageIncomplete
  else if Config.memCells < s.mem.length then .refused .imageTooLarge
  else if s.mem.inDomain = false then .refused .imageOutsideDomain
  else .next (s.startRun entry.toNat)

/-- A host write of one cell, a value of D (R204). -/
def State.hostWrite (s : State) (a : Nat) (v : Int) : Result :=
  if a < Config.memCells then
    if InDomain v then .next (s.setMem (s.mem.write a v)) else .refused (.hostWriteOutsideDomain v)
  else .refused (.hostWriteNoSuchCell a)

/-- A quiescent core takes no step of its own (R28): the host's next move happens, or nothing does and all state is
retained (R179; log 8). -/
def State.hostTurn (s : State) : Result :=
  match s.hostMoves with
  | [] => .next s
  | .write a v :: rest => (s.setHostMoves rest).hostWrite a v
  | .start entry :: rest => (s.setHostMoves rest).start entry

/-- What the host can read (R198, R90). -/
structure HostView where
  acc : Int
  pc : Nat
  mem : Memory
  status : Status
  output : List Int
  inputsUsed : Nat
  deriving DecidableEq, Repr

/-- The host's read: everything while the core is quiescent, nothing while it is Running (R178, R204). -/
def State.hostRead (s : State) : Option HostView :=
  if s.status = .running then none
  else some { acc := s.acc, pc := s.pc, mem := s.mem, status := s.status, output := s.output, inputsUsed := s.inputsUsed }

end Sys2Proof.Machine
end

