-- ==== Sys2Proof/Machine/Operands.lean ====
section
/-! DEFINITION. What the address field means to each kind of instruction (spec/30_encoding.md rule R64): a cell read, a cell
written, a branch target. SFT's two counts are taken apart by the decoder (R63). Absolute addressing is the only mode
(spec/42_accumulator.md rule R110). -/

namespace Sys2Proof.Machine

/-- The effective address of a data operand is the address field itself (R62, R110). -/
def dataAddress (aa : Nat) : Nat := aa

/-- The target of a control transfer is the address field itself (R139). -/
def branchTarget (aa : Nat) : Nat := aa

/-- Go on with the value of the data operand (CLA, ADD, SUB, OUT; R64). -/
def State.withOperand (s : State) (aa : Nat) (k : Int → Result) : Result := s.loadThen (dataAddress aa) k

/-- Put a value in the cell the address field names (STO, INP; R64) and end the step. -/
def State.storeOperand (s : State) (aa : Nat) (v : Int) : Result :=
  s.storeThen (dataAddress aa) v State.finish

end Sys2Proof.Machine
end

