-- ==== Sys2Proof/Machine/InputOutput.lean ====
section
/-! DEFINITION. INP and OUT and the two ports (spec/41_io.md rules R100 to R106, spec/60_exceptions.md rules R165, R167). -/

namespace Sys2Proof.Machine

/-- `In()` of the INP `aa` fetched from `p`, once pc has been advanced (R102): the value is reduced and stored; a
failure takes F3 (R165); without an answer the core is held in the transaction with nothing else done (R105). -/
def State.answerInput (s : State) (p aa : Nat) : Result :=
  match s.inputs with
  | [] => .next (s.setHeld (some (.input p aa)))
  | .delay :: rest => .next ((s.setInputs rest).setHeld (some (.input p aa)))
  | .fail :: rest => .next ((s.setInputs rest).raise .inputFailure p (some (encode (.inp aa))))
  | .value v :: rest =>
    (((s.setInputs rest).setInputsUsed (s.inputsUsed + 1)).setHeld none).storeOperand aa (red v)

/-- `Out(v)` of the OUT `aa` fetched from `p`, once pc has been advanced and the cell read (R104): the value joins the
output history as it stands; a failure takes F4 and delivers nothing (R167); without an answer the core is held (R105). -/
def State.answerOutput (s : State) (p aa : Nat) (v : Int) : Result :=
  match s.outAnswers with
  | [] => .next (s.setHeld (some (.output p aa v)))
  | .delay :: rest => .next ((s.setOutAnswers rest).setHeld (some (.output p aa v)))
  | .fail :: rest => .next ((s.setOutAnswers rest).raise .outputFailure p (some (encode (.out aa))))
  | .ok :: rest => (((s.setOutAnswers rest).setOutput (s.output ++ [v])).setHeld none).finish

/-- A core held in a transaction asks the port again; no other instruction starts before it completes (R105). -/
def State.resume (s : State) : Transaction → Result
  | .input p aa => s.answerInput p aa
  | .output p aa v => s.answerOutput p aa v

/-- INP (R102). -/
def execInp (aa : Nat) (s : State) : Result := s.advance.answerInput s.pc aa

/-- OUT (R104): it outputs the memory cell, not the accumulator. -/
def execOut (aa : Nat) (s : State) : Result :=
  s.advance.withOperand aa fun v => s.advance.answerOutput s.pc aa v

end Sys2Proof.Machine
end

