-- ==== Sys2Proof/Machine/Cycle.lean ====
section
/-! DEFINITION. What a step does before an instruction's body: whose turn it is, the fetch and the decode
(spec/40_cycle.md rules R80 to R83). -/

namespace Sys2Proof.Machine

/-- What a step comes to: the body of an instruction, or an outcome already settled. -/
inductive Action where
  /-- Execute this instruction. -/
  | run (i : Instr)
  /-- The step is already over. -/
  | settle (o : Result)

/-- Fetch and decode (R82, R83): past cell 99 takes F5 with nothing read; a word outside 0..999 takes F1 with pc not yet
advanced. Fetching a cell nobody has written has no defined result (R33). -/
def State.fetchDecode (s : State) : Action :=
  if s.pc < Config.memCells then
    match s.mem.read s.pc with
    | none => .settle (.fault (.unwrittenCell s.pc))
    | some w =>
      match decode w with
      | .ok i => .run i
      | .error _ => .settle (.next (s.raise .invalidOpcode s.pc (some w)))
  else .settle (.next (s.raise .pcOutOfRange s.pc none))

/-- Whose turn it is: a Running core goes on with a transaction in progress (R105) or fetches; a quiescent core leaves
the turn to the host (R28, R204). -/
def State.nextAction (s : State) : Action :=
  match s.status with
  | .running =>
    match s.held with
    | some t => .settle (s.resume t)
    | none => s.fetchDecode
  | .idle => .settle s.hostTurn
  | .halted => .settle s.hostTurn
  | .faulted _ _ _ => .settle s.hostTurn

end Sys2Proof.Machine
end

