-- ==== Sys2Proof/Machine/Accumulator.lean ====
section
/-! DEFINITION. CLA, ADD, SUB and STO (spec/42_accumulator.md rules R110 to R116). -/

namespace Sys2Proof.Machine

/-- CLA (R110): `acc <- mem[aa]`. -/
def execCla (aa : Nat) (s : State) : Result :=
  s.advance.withOperand aa fun v => (s.advance.setAcc v).finish

/-- ADD (R111): the exact sum, then the reduction. -/
def execAdd (aa : Nat) (s : State) : Result :=
  s.advance.withOperand aa fun v => (s.advance.setAcc (exactSum s.acc v)).finish

/-- SUB (R112): the exact difference, accumulator minus memory, then the reduction. -/
def execSub (aa : Nat) (s : State) : Result :=
  s.advance.withOperand aa fun v => (s.advance.setAcc (exactDifference s.acc v)).finish

/-- STO (R114): `mem[aa] <- acc`, stored as it stands before the reduction. -/
def execSto (aa : Nat) (s : State) : Result := s.advance.storeOperand aa s.acc

end Sys2Proof.Machine
end

