-- ==== Sys2Proof/Machine/Flags.lean ====
section
/-! DEFINITION. The machine has no flags and no condition codes (spec/10_state.md rule R30); what an instruction tests is
the accumulator itself (spec/44_control.md rule R141). -/

namespace Sys2Proof.Machine

/-- The one condition of the machine: the accumulator is strictly negative (R140, R141). -/
def accNegative (acc : Int) : Bool := decide (acc < 0)

end Sys2Proof.Machine
end

