-- ==== Sys2Proof/Machine/Control.lean ====
section
/-! DEFINITION. TAC, JMP and HRS (spec/44_control.md rules R139 to R147). -/

namespace Sys2Proof.Machine

/-- TAC (R140): branch exactly when the accumulator is strictly negative. -/
def execTac (aa : Nat) (s : State) : Result :=
  if accNegative s.acc then (s.advance.setPc (branchTarget aa)).finish else s.advance.finish

/-- The word JMP leaves in cell 99: the tag plus the advanced pc (R144, R145). -/
def returnWord (advancedPc : Nat) : Int := Config.jmpTag + advancedPc

/-- JMP (R144): the return word into cell 99, then `pc <- aa`. -/
def execJmp (aa : Nat) (s : State) : Result :=
  s.advance.storeThen Config.returnCell (returnWord s.advance.pc) fun t => (t.setPc (branchTarget aa)).finish

/-- HRS (R147): `pc <- aa` and the run is over; the reduction is not performed (R86). -/
def execHrs (aa : Nat) (s : State) : Result := .next ((s.advance.setPc (branchTarget aa)).setStatus .halted)

end Sys2Proof.Machine
end

