-- ==== Sys2Proof/Machine/Shift.lean ====
section
/-! DEFINITION. SFT, the decimal digit shift (spec/43_shift.md rules R130 to R135). -/

namespace Sys2Proof.Machine

/-- SFT (R131): left by `l` digits, then right by `r` digits truncating toward zero, then the only reduction. -/
def execSft (l r : Nat) (s : State) : Result := (s.advance.setAcc (digitShift l r s.acc)).finish

end Sys2Proof.Machine
end

