-- ==== Sys2Proof/Machine/Dispatch.lean ====
section
/-! DEFINITION. One arm per instruction (spec/40_cycle.md rule R85). The state handed to a meaning is the state the
instruction was fetched in: its pc is the fetch address `p`, and the meaning itself advances it (R84; log 10). -/

namespace Sys2Proof.Machine

def exec (i : Instr) (s : State) : Host.Outcome State Fault Refusal :=
  match i with
  | .inp aa => Sys2Proof.Machine.execInp aa s
  | .cla aa => Sys2Proof.Machine.execCla aa s
  | .add aa => Sys2Proof.Machine.execAdd aa s
  | .tac aa => Sys2Proof.Machine.execTac aa s
  | .sft l r => Sys2Proof.Machine.execSft l r s
  | .out aa => Sys2Proof.Machine.execOut aa s
  | .sto aa => Sys2Proof.Machine.execSto aa s
  | .sub aa => Sys2Proof.Machine.execSub aa s
  | .jmp aa => Sys2Proof.Machine.execJmp aa s
  | .hrs aa => Sys2Proof.Machine.execHrs aa s

end Sys2Proof.Machine
end

