-- ==== Sys2Proof/Machine/Step.lean ====
section
/-! DEFINITION. One step (spec/40_cycle.md rule R88), and how the host's checks place an instruction. -/

namespace Sys2Proof.Machine

/-- One step of the machine: one whole instruction, one more wait inside a port transaction, or one host move. -/
def step (s : State) : Host.Outcome State Fault Refusal :=
  match s.nextAction with
  | .run i => exec i s
  | .settle o => o

/-- `s` with the word `w` in the cell that the next step fetches from. It stands for a host's load and START (R196, log
4): the cells nobody has written get the value of unused cells, the word goes to the cell at pc (to the classic entry
where pc is past the memory), and the core is Running and in no transaction. -/
def State.withFetchWord (s : State) (_nbits w : Nat) : State :=
  let p := if s.pc < Config.memCells then s.pc else Config.classicEntry
  (((s.setPc p).setMem (s.mem.fillUnused.write p (w : Int))).setStatus .running).setHeld none

end Sys2Proof.Machine
end

