-- ==== Sys2Proof/Safety.lean ====
section
/-! DEFINITION. What counts as a legal state, as the normal end of a run, and as a valid image, in the terms the statements use. -/

namespace Sys2Proof.Machine

/-- A quiescent status: the core takes no step of its own (R28, R179). -/
def Status.quiescent : Status → Bool
  | .running => false
  | .idle => true
  | .halted => true
  | .faulted _ _ _ => true

/-- A fault record as the table of R160 has it: which address and which word each fault records. -/
def Status.recordLegal : Status → Bool
  | .faulted .invalidOpcode fpc (some w) => decide (0 ≤ fpc ∧ fpc ≤ 99) && decide (w < 0 ∨ 999 < w)
  | .faulted .startPcOutOfRange fpc none => decide (fpc < 0 ∨ 99 < fpc)
  | .faulted .inputFailure fpc (some w) => decide (0 ≤ fpc ∧ fpc ≤ 99) && decide (0 ≤ w ∧ w ≤ 99)
  | .faulted .outputFailure fpc (some w) => decide (0 ≤ fpc ∧ fpc ≤ 99) && decide (500 ≤ w ∧ w ≤ 599)
  | .faulted .pcOutOfRange fpc none => decide (fpc = 100)
  | .faulted _ _ _ => false
  | .idle => true
  | .running => true
  | .halted => true

/-- A transaction in progress is that of the instruction the run last fetched (R80, R105): the core is Running, pc stands
just past it, its word is still in its cell, and an output transaction offers the value of the cell it names. -/
def State.heldLegal (s : State) : Bool :=
  match s.held with
  | none => true
  | some (.input p aa) =>
    decide (s.status = .running) && decide (p ≤ 99) && decide (aa ≤ 99) && decide (s.pc = p + 1)
      && decide (s.mem.read p = some (encode (.inp aa)))
  | some (.output p aa v) =>
    decide (s.status = .running) && decide (p ≤ 99) && decide (aa ≤ 99) && decide (s.pc = p + 1)
      && decide (s.mem.read p = some (encode (.out aa))) && decide (s.mem.read aa = some v)

/-- The invariant of the machine: what every state the rules can reach satisfies. -/
structure Inv (s : State) : Prop where
  /-- `pc` is in 0..100 (R20, R26). -/
  pc_range : s.pc ≤ 100
  /-- The accumulator is in D at every step boundary (R22). -/
  acc_domain : InDomain s.acc
  /-- The memory has its canonical form. -/
  mem_wf : s.mem.wf
  /-- Every cell that holds a value holds one of D (R27). -/
  mem_domain : s.mem.inDomain = true
  /-- A Running core has all 100 cells (R196, R204). -/
  mem_full : s.status = .running → s.mem.full = true
  /-- The core is held only in a transaction it began (R105). -/
  held_legal : s.heldLegal = true
  /-- The fault record is one of the table of R160. -/
  record_legal : s.status.recordLegal = true

/-- A run has ended normally exactly when the status is Halted (R90). -/
abbrev State.endedNormally (s : State) : Prop := s.status = .halted

/-- A Running core about to fetch (R82). -/
abbrev State.fetching (s : State) : Prop := s.status = .running ∧ s.held = none

end Sys2Proof.Machine
end

