-- ==== Sys2Proof/Certificates/Slice0/Obligations.lean ====
section
/-! DEFINITION. The statements for the provers. Each docstring names the sentence of spec/ it formalises; a clause that is the
model's own choice names its log entry. -/

open Sys2Proof Sys2Proof.Machine

/-! ### Encoding -/

/-- spec/95_test_vectors.md section 2.1: words written out from the spec's encoding decode to what they stand for, one for
each opcode. -/
def Obligations.SampleWordsDecodeAsTabled : Prop :=
  decode 24 = .ok (.inp 24) ∧ decode 120 = .ok (.cla 20) ∧ decode 299 = .ok (.add 99) ∧
  decode 300 = .ok (.tac 0) ∧ decode 421 = .ok (.sft 2 1) ∧ decode 524 = .ok (.out 24) ∧
  decode 614 = .ok (.sto 14) ∧ decode 721 = .ok (.sub 21) ∧ decode 806 = .ok (.jmp 6) ∧
  decode 999 = .ok (.hrs 99)

/-- R66: encoding and decoding are inverse on the legal range, in both directions. -/
def Obligations.DecodeAndEncodeAreInverse : Prop :=
  (∀ i : Instr, WellFormed i → decode (encode i) = .ok i ∧ 0 ≤ encode i ∧ encode i ≤ 999) ∧
  (∀ w : Int, 0 ≤ w → w ≤ 999 → ∃ i, decode w = .ok i ∧ WellFormed i ∧ encode i = w) ∧
  (∀ w : Int, 0 ≤ w → w ≤ 999 → w / 100 * 100 + w % 100 = w)

/-- R62, R63, R67: every word of 0..999 is an instruction, its fields are the decimal digits `div 100` and `mod 100`, and
for SFT the two digits of the address. -/
def Obligations.EveryThreeDigitWordDecodesByItsDigits : Prop :=
  (∀ n : Nat, n ≤ 999 → ∃ i, decode (n : Int) = .ok i ∧
    i.opcode = n / 100 ∧ i.address = n % 100 ∧ i.opcode ≤ 9 ∧ i.address ≤ 99) ∧
  (∀ n : Nat, n / 100 = 4 → decode (n : Int) = .ok (.sft (n % 100 / 10) (n % 100 % 10)) ∧
    n % 100 / 10 ≤ 9 ∧ n % 100 % 10 ≤ 9) ∧
  (∀ l r : Nat, l ≤ 9 → r ≤ 9 → decode ((400 + 10 * l + r : Nat) : Int) = .ok (.sft l r))

/-- spec/30_encoding.md section 4 (decision D4): exactly the words outside 0..999, so every negative word, are rejected.
-/
def Obligations.WordsOutsideRangeAreRejected : Prop :=
  ∀ w : Int, decode w = .error (.invalidOpcode w) ↔ (w < 0 ∨ 999 < w)

/-! ### Arithmetic -/

/-- R10: the reduction is `sign(v) × (|v| mod 1000)`, it lands in D and leaves a value of D as it is; with R10's own five
examples. -/
def Obligations.ReductionIsSymmetricRemainder : Prop :=
  (∀ v : Int, red v = v.sign * ((v.natAbs % 1000 : Nat) : Int) ∧ red v = v - 1000 * tdiv v 1000 ∧
    InDomain (red v) ∧ (InDomain v → red v = v)) ∧
  red (-1) = -1 ∧ red (-1234) = -234 ∧ red 1000 = 0 ∧ red (-1000) = 0 ∧ red 1998 = 998

/-- spec/42_accumulator.md section 2, the overflow table (derived there from the rules of ADD and SUB): an overflow drops
the thousands digit and keeps the sign; and the reduction is odd. -/
def Obligations.OverflowDropsThousandsAndKeepsSign : Prop :=
  (∀ (s : State) (aa : Nat) (m : Int), aa ≤ 99 → s.mem.read aa = some m → InDomain m → InDomain s.acc →
    ∃ t u, exec (.add aa) s = .next t ∧ exec (.sub aa) s = .next u ∧
      (InDomain (s.acc + m) → t.acc = s.acc + m) ∧
      (1000 ≤ s.acc + m → t.acc = s.acc + m - 1000 ∧ 0 ≤ t.acc) ∧
      (s.acc + m ≤ -1000 → t.acc = s.acc + m + 1000 ∧ t.acc ≤ 0) ∧
      (InDomain (s.acc - m) → u.acc = s.acc - m) ∧
      (1000 ≤ s.acc - m → u.acc = s.acc - m - 1000 ∧ 0 ≤ u.acc) ∧
      (s.acc - m ≤ -1000 → u.acc = s.acc - m + 1000 ∧ u.acc ≤ 0)) ∧
  ∀ v : Int, red (-v) = -red v

/-! ### The ten instructions -/

/-- R110, CLA. -/
def Obligations.ClaLoadsTheCell : Prop :=
  ∀ (s : State) (aa : Nat) (v : Int), aa ≤ 99 → s.mem.read aa = some v → InDomain v →
    decode ((100 + aa : Nat) : Int) = .ok (.cla aa) ∧
    exec (.cla aa) s = .next { s with acc := v, pc := s.pc + 1 }

/-- R111, ADD. -/
def Obligations.AddLeavesTheReducedSum : Prop :=
  ∀ (s : State) (aa : Nat) (m : Int), aa ≤ 99 → s.mem.read aa = some m →
    decode ((200 + aa : Nat) : Int) = .ok (.add aa) ∧
    exec (.add aa) s = .next { s with acc := red (s.acc + m), pc := s.pc + 1 } ∧
    (InDomain s.acc → InDomain m → -1998 ≤ s.acc + m ∧ s.acc + m ≤ 1998)

/-- R112, SUB: accumulator minus memory. -/
def Obligations.SubLeavesTheReducedDifference : Prop :=
  ∀ (s : State) (aa : Nat) (m : Int), aa ≤ 99 → s.mem.read aa = some m →
    decode ((700 + aa : Nat) : Int) = .ok (.sub aa) ∧
    exec (.sub aa) s = .next { s with acc := red (s.acc - m), pc := s.pc + 1 } ∧
    (InDomain s.acc → InDomain m → -1998 ≤ s.acc - m ∧ s.acc - m ≤ 1998)

/-- R114, STO: the cell `aa` takes the accumulator, every other cell and everything else but pc stays. -/
def Obligations.StoStoresTheAccumulator : Prop :=
  ∀ (s : State) (aa : Nat), aa ≤ 99 → InDomain s.acc →
    decode ((600 + aa : Nat) : Int) = .ok (.sto aa) ∧
    ∃ m, exec (.sto aa) s = .next { s with mem := m, pc := s.pc + 1 } ∧
      m.read aa = some s.acc ∧ ∀ b, b ≠ aa → m.read b = s.mem.read b

/-- R131, SFT: the exact product, the quotient truncated toward zero, one reduction at the end. -/
def Obligations.SftShiftsLeftThenRightThenReduces : Prop :=
  ∀ (s : State) (l r : Nat), l ≤ 9 → r ≤ 9 →
    decode ((400 + 10 * l + r : Nat) : Int) = .ok (.sft l r) ∧
    exec (.sft l r) s = .next { s with acc := red (Int.tdiv (s.acc * 10 ^ l) (10 ^ r)), pc := s.pc + 1 }

/-- spec/43_shift.md, the digit table (derived there from SFT's rule): with sign `g` and digits `h t u` of the accumulator
the result depends only on `l - r`. -/
def Obligations.SftMovesTheDigits : Prop :=
  ∀ (s : State) (l r : Nat) (g h t u : Int), l ≤ 9 → r ≤ 9 → (g = 1 ∨ g = -1) →
    0 ≤ h → h ≤ 9 → 0 ≤ t → t ≤ 9 → 0 ≤ u → u ≤ 9 → s.acc = g * (100 * h + 10 * t + u) →
    ∃ n, exec (.sft l r) s = .next n ∧
      (r + 3 ≤ l → n.acc = 0) ∧
      (l = r + 2 → n.acc = g * (100 * u)) ∧
      (l = r + 1 → n.acc = g * (100 * t + 10 * u)) ∧
      (l = r → n.acc = s.acc) ∧
      (r = l + 1 → n.acc = g * (10 * h + t)) ∧
      (r = l + 2 → n.acc = g * h) ∧
      (l + 3 ≤ r → n.acc = 0)

/-- R140, TAC: branch exactly when the accumulator is strictly negative; the accumulator and memory stay. -/
def Obligations.TacBranchesOnStrictlyNegative : Prop :=
  ∀ (s : State) (aa : Nat), aa ≤ 99 → InDomain s.acc →
    decode ((300 + aa : Nat) : Int) = .ok (.tac aa) ∧
    (s.acc < 0 → exec (.tac aa) s = .next { s with pc := aa }) ∧
    (0 ≤ s.acc → exec (.tac aa) s = .next { s with pc := s.pc + 1 })

/-- R144, JMP: cell 99 takes `801 + p`, in 801..900, then `pc <- aa`; the accumulator and every other cell stay. -/
def Obligations.JmpRecordsTheReturnWord : Prop :=
  ∀ (s : State) (aa : Nat), aa ≤ 99 → s.pc ≤ 99 → InDomain s.acc →
    decode ((800 + aa : Nat) : Int) = .ok (.jmp aa) ∧
    ∃ m, exec (.jmp aa) s = .next { s with mem := m, pc := aa } ∧
      m.read 99 = some (801 + (s.pc : Int)) ∧ 801 ≤ 801 + (s.pc : Int) ∧ 801 + (s.pc : Int) ≤ 900 ∧
      ∀ b, b ≠ 99 → m.read b = s.mem.read b

/-- spec/44_control.md section 4, HRS: `pc <- aa` and Halted, nothing else; and the core takes no further step while the
host makes no move. That the step of the model on that Halted core answers the same state is the model's choice (log 8),
as is the host's list of moves (log 7). -/
def Obligations.HrsHaltsTheRun : Prop :=
  ∀ (s : State) (aa : Nat), aa ≤ 99 →
    decode ((900 + aa : Nat) : Int) = .ok (.hrs aa) ∧
    exec (.hrs aa) s = .next { s with pc := aa, status := .halted } ∧
    (s.hostMoves = [] →
      step { s with pc := aa, status := .halted } = .next { s with pc := aa, status := .halted })

/-- spec/44_control.md section 3 (derived there from JMP's rule): the word JMP at `p` leaves in cell 99 is `JMP (p + 1)`,
but for `p = 99`, where it is `HRS 00`. -/
def Obligations.ReturnWordDecodesToJumpBack : Prop :=
  ∀ (s t : State) (aa : Nat), s.pc ≤ 99 → exec (.jmp aa) s = .next t →
    ∃ w, t.mem.read 99 = some w ∧
      (s.pc < 99 → decode w = .ok (.jmp (s.pc + 1))) ∧ (s.pc = 99 → decode w = .ok (.hrs 0))

/-- spec/44_control.md section 5 (derived there): executing, from any cell, the return word of a JMP at cell `c` resumes
at the cell after that JMP, and rewrites cell 99. -/
def Obligations.ExecutedReturnWordResumesCaller : Prop :=
  ∀ (s : State) (c : Nat), s.fetching → InDomain s.acc → s.pc ≤ 99 → c < 99 →
    s.mem.read s.pc = some (returnWord (c + 1)) →
    ∃ t, step s = .next t ∧ t.pc = c + 1 ∧ t.acc = s.acc ∧ t.status = .running ∧
      t.mem.read 99 = some (801 + (s.pc : Int))

/-! ### The ports -/

/-- spec/41_io.md section 2, INP, when `In()` answers a value (the answer stands in State: log 5): the reduced value is
stored, one value is taken, nothing else but pc changes. That the reduction of a negative value is the truncating `red`
(-1666 is stored as -666) is the spec's own decision D8, which the model follows (log 11, unsafe). -/
def Obligations.InpStoresTheReducedValue : Prop :=
  ∀ (s : State) (aa : Nat) (v : Int) (rest : List InAnswer), aa ≤ 99 → InDomain s.acc → s.held = none →
    s.inputs = .value v :: rest →
    decode ((aa : Nat) : Int) = .ok (.inp aa) ∧
    ∃ m, exec (.inp aa) s =
        .next { s with mem := m, pc := s.pc + 1, inputs := rest, inputsUsed := s.inputsUsed + 1 } ∧
      m.read aa = some (red v) ∧ ∀ b, b ≠ aa → m.read b = s.mem.read b

/-- spec/60_exceptions.md section 1, F3 (decisions D6, D9): when `In()` fails, INP takes F3 with its own address and word;
pc is advanced, no cell is written, no value is counted. That the failing answer stands in State and is used up is the
model's choice (log 5). -/
def Obligations.FailedInputTakesF3 : Prop :=
  ∀ (s : State) (aa : Nat) (rest : List InAnswer), s.held = none → s.inputs = .fail :: rest →
    exec (.inp aa) s = .next { s with
      pc := s.pc + 1, inputs := rest, status := .faulted .inputFailure s.pc (some (aa : Int)) }

/-- spec/41_io.md section 3, OUT, when `Out(v)` answers ok (the answer stands in State: log 5): the value of the cell
joins the output history as it stands, nothing else but pc changes. -/
def Obligations.OutHandsOverTheCell : Prop :=
  ∀ (s : State) (aa : Nat) (v : Int) (rest : List OutAnswer), aa ≤ 99 → InDomain s.acc → s.held = none →
    s.mem.read aa = some v → s.outAnswers = .ok :: rest →
    decode ((500 + aa : Nat) : Int) = .ok (.out aa) ∧
    exec (.out aa) s = .next { s with pc := s.pc + 1, outAnswers := rest, output := s.output ++ [v] }

/-- spec/60_exceptions.md section 1, F4 (decisions D6, D9): when `Out(v)` fails, OUT takes F4 with its own address and
word; pc is advanced and nothing is delivered. That the failing answer stands in State and is used up is the model's
choice (log 5). -/
def Obligations.FailedOutputTakesF4 : Prop :=
  ∀ (s : State) (aa : Nat) (v : Int) (rest : List OutAnswer), aa ≤ 99 → s.held = none →
    s.mem.read aa = some v → s.outAnswers = .fail :: rest →
    exec (.out aa) s = .next { s with
      pc := s.pc + 1, outAnswers := rest,
      status := .faulted .outputFailure s.pc (some (500 + (aa : Int))) }

/-- spec/41_io.md section 4 (form of waiting: logs 5, 6): while the port gives no answer the state is what the advance
left, the run stays Running, and every further step changes nothing. -/
def Obligations.UnansweredPortHoldsTheCore : Prop :=
  (∀ (s : State) (aa : Nat), s.status = .running → s.inputs = [] →
    exec (.inp aa) s = .next { s with pc := s.pc + 1, held := some (.input s.pc aa) } ∧
    step { s with pc := s.pc + 1, held := some (.input s.pc aa) } =
      .next { s with pc := s.pc + 1, held := some (.input s.pc aa) }) ∧
  (∀ (s : State) (aa : Nat) (v : Int), aa ≤ 99 → s.mem.read aa = some v → s.status = .running → s.outAnswers = [] →
    exec (.out aa) s = .next { s with pc := s.pc + 1, held := some (.output s.pc aa v) } ∧
    step { s with pc := s.pc + 1, held := some (.output s.pc aa v) } =
      .next { s with pc := s.pc + 1, held := some (.output s.pc aa v) })

/-- spec/41_io.md section 4 and spec/60_exceptions.md section 4 (a cancellation is the `fail` of a transaction the core
already waits in); the form of waiting is logs 5, 6: a transaction answered after any number of delays, by a value, an ok
or a failure (decisions D6, D9), leaves exactly the state that the same prompt answer leaves, in no transaction, Running
or in F3 or F4. -/
def Obligations.DelayedAnswerGivesThePromptResult : Prop :=
  (∀ (n : Nat) (s : State) (aa : Nat) (ans : InAnswer) (rest : List InAnswer), s.fetching → s.pc ≤ 99 → aa ≤ 99 →
    InDomain s.acc → s.mem.read s.pc = some (encode (.inp aa)) → ans ≠ .delay →
    s.inputs = List.replicate n .delay ++ ans :: rest →
    Sys2Proof.core.run (n + 1) s = exec (.inp aa) { s with inputs := ans :: rest } ∧
    ∃ t, exec (.inp aa) { s with inputs := ans :: rest } = .next t ∧ t.held = none ∧
      (ans ≠ .fail → t.status = .running) ∧
      (ans = .fail → t.status = .faulted .inputFailure s.pc (some (aa : Int)))) ∧
  (∀ (n : Nat) (s : State) (aa : Nat) (v : Int) (ans : OutAnswer) (rest : List OutAnswer), s.fetching → s.pc ≤ 99 →
    aa ≤ 99 → InDomain s.acc → s.mem.read s.pc = some (encode (.out aa)) → s.mem.read aa = some v → ans ≠ .delay →
    s.outAnswers = List.replicate n .delay ++ ans :: rest →
    Sys2Proof.core.run (n + 1) s = exec (.out aa) { s with outAnswers := ans :: rest } ∧
    ∃ t, exec (.out aa) { s with outAnswers := ans :: rest } = .next t ∧ t.held = none ∧
      (ans ≠ .fail → t.status = .running) ∧
      (ans = .fail → t.status = .faulted .outputFailure s.pc (some (500 + (aa : Int)))))

/-! ### The cycle -/

/-- spec/40_cycle.md section 2, dispatch: a Running core whose cell at pc decodes to `i` executes exactly `i`, the
well-formed instruction whose opcode is `w div 100`. That the step adds nothing around exec, the meaning being given the
state before the advance and advancing pc itself, is the model's reading (log 10, DEDUCED). -/
def Obligations.StepExecutesTheDecodedInstruction : Prop :=
  ∀ (s : State) (w : Int) (i : Instr), s.fetching → s.pc ≤ 99 → s.mem.read s.pc = some w → decode w = .ok i →
    step s = exec i s ∧ WellFormed i ∧ encode i = w ∧ (i.opcode : Int) = w / 100

/-- spec/40_cycle.md section 2 and spec/60_exceptions.md section 1, F5 (decision D5): a fetch with `pc = 100` takes F5 and
changes nothing but the status. -/
def Obligations.FetchPastCell99TakesF5 : Prop :=
  ∀ s : State, s.fetching → s.pc = 100 →
    step s = .next { s with status := .faulted .pcOutOfRange 100 none }

/-- spec/40_cycle.md section 2 and spec/60_exceptions.md section 1, F1 (decision D4): a fetched word outside 0..999 takes
F1 with its address and the word; pc is not advanced and nothing but the status changes. -/
def Obligations.FetchedIllegalWordTakesF1 : Prop :=
  ∀ (s : State) (w : Int), s.fetching → s.pc ≤ 99 → s.mem.read s.pc = some w → (w < 0 ∨ 999 < w) →
    step s = .next { s with status := .faulted .invalidOpcode s.pc (some w) }

/-- spec/10_state.md section 3, the table of what each instruction leaves in pc, faults included, and section 3's top of
the address space (decision D5): pc is never wrapped. A step of INP or OUT that only begins to wait counts too (logs 5,
6). -/
def Obligations.PcAfterEachStep : Prop :=
  ∀ s t : State, Inv s → s.fetching → step s = .next t →
    (s.pc = 100 → t.pc = 100) ∧
    ∀ w, s.pc ≤ 99 → s.mem.read s.pc = some w →
      ((w < 0 ∨ 999 < w) → t.pc = s.pc) ∧
      (∀ i aa l r, decode w = .ok i →
        (i = .inp aa ∨ i = .cla aa ∨ i = .add aa ∨ i = .sft l r ∨ i = .out aa ∨ i = .sto aa ∨ i = .sub aa) →
        t.pc = s.pc + 1) ∧
      (∀ aa, decode w = .ok (.tac aa) → (s.acc < 0 → t.pc = aa) ∧ (0 ≤ s.acc → t.pc = s.pc + 1)) ∧
      (∀ aa, decode w = .ok (.jmp aa) → t.pc = aa ∧ t.mem.read 99 = some (800 + ((s.pc : Int) + 1))) ∧
      (∀ aa, decode w = .ok (.hrs aa) → t.pc = aa ∧ t.status = .halted)

/-- spec/20_memory.md section 5, instruction-fetch coherence: a value STO puts in the very next cell is what the next step
executes (that the step is exec alone: log 10). The second clause, that a negative value takes F1 with its record before
the advance, rests on spec/40_cycle.md section 2, spec/60_exceptions.md section 1 and decision D4 (log 11). -/
def Obligations.StoredWordIsFetchedByTheNextStep : Prop :=
  ∀ s t : State, s.fetching → InDomain s.acc → s.pc < 99 →
    s.mem.read s.pc = some (encode (.sto (s.pc + 1))) → step s = .next t →
    (∀ i, decode s.acc = .ok i → step t = exec i t) ∧
    (s.acc < 0 → step t = .next { t with status := .faulted .invalidOpcode (s.pc + 1 : Nat) (some s.acc) })

/-! ### The run start and the host -/

/-- spec/70_reset_and_hazards.md section 1, START with a valid entry on a valid image: the marker in cell 0, every other
cell as it was, `acc <- 0`, `pc <- entry`, Running; accepted in Idle, Halted and Faulted (decision D12). That the run's
output history and count of inputs begin anew is the model's reading (log 9, DEDUCED); the host's list of moves is log 7.
-/
def Obligations.StartBeginsARun : Prop :=
  ∀ (s : State) (entry : Nat) (rest : List HostMove), s.status.quiescent = true → s.held = none →
    s.hostMoves = .start entry :: rest → entry ≤ 99 → s.mem.full = true → s.mem.length ≤ 100 →
    s.mem.inDomain = true →
    ∃ m, step s = .next { s with
        acc := 0, pc := entry, mem := m, status := .running, output := [], inputsUsed := 0, hostMoves := rest } ∧
      m.read 0 = some 1 ∧ ∀ b, b ≠ 0 → m.read b = s.mem.read b

/-- spec/60_exceptions.md section 1, F2 (decision D7): START with an entry outside 0..99 takes F2 and changes nothing but
the status, whatever the memory holds (the host's list of moves: log 7). -/
def Obligations.StartOutOfRangeTakesF2 : Prop :=
  ∀ (s : State) (entry : Int) (rest : List HostMove), s.status.quiescent = true → s.held = none →
    s.hostMoves = .start entry :: rest → (entry < 0 ∨ 99 < entry) →
    step s = .next { s with status := .faulted .startPcOutOfRange entry none, hostMoves := rest }

/-- spec/70_reset_and_hazards.md section 2 (decisions D12, D19; the refusals' names and their order are log 2, the host's
list of moves is log 7): a START on a memory that is no valid image, one with fewer or more than the 100 cells or with a
value outside D, is refused, by name. -/
def Obligations.InvalidImageIsRefused : Prop :=
  ∀ (s : State) (entry : Int) (rest : List HostMove), s.status.quiescent = true →
    s.hostMoves = .start entry :: rest → 0 ≤ entry → entry ≤ 99 →
    (s.mem.full = false → step s = .refused .imageIncomplete) ∧
    (s.mem.full = true → 100 < s.mem.length → step s = .refused .imageTooLarge) ∧
    (s.mem.full = true → s.mem.length ≤ 100 → s.mem.inDomain = false → step s = .refused .imageOutsideDomain)

/-- spec/20_memory.md section 4, cell 0 (derived there): a run started at 0 executes the marker as INP 01 first, whatever
the loader put in cell 0 (that the step is exec alone: log 10; the host's list of moves: log 7). -/
def Obligations.RunStartedAtZeroExecutesInp01 : Prop :=
  ∀ (s t : State) (rest : List HostMove), s.status.quiescent = true → s.hostMoves = .start 0 :: rest →
    step s = .next t → step t = exec (.inp 1) t

/-- spec/70_reset_and_hazards.md section 3, the table of moves (decision D14): while the core is quiescent a host write of
a value of D puts it in its cell and changes nothing else; while the core is Running no host move happens. The moves as a
list taken one per step are the model's choice (log 7). -/
def Obligations.HostWritesOnlyWhileQuiescent : Prop :=
  (∀ (s : State) (a : Nat) (v : Int) (rest : List HostMove), s.status.quiescent = true →
    s.hostMoves = .write a v :: rest → a ≤ 99 → InDomain v →
    ∃ m, step s = .next { s with mem := m, hostMoves := rest } ∧
      m.read a = some v ∧ ∀ b, b ≠ a → m.read b = s.mem.read b) ∧
  (∀ s t : State, s.status = .running → step s = .next t → t.hostMoves = s.hostMoves)

/-- spec/60_exceptions.md section 6, power states, and section 3 (decisions D6, D13; that a quiescent step of the model
answers the same state is log 8): Idle, Halted and Faulted states are retained while the host makes no move. -/
def Obligations.QuiescentCoreRetainsItsState : Prop :=
  ∀ (k : Nat) (s : State), s.status.quiescent = true → s.hostMoves = [] → Sys2Proof.core.run k s = .next s

/-! ### Whole-machine rules -/

/-- spec/10_state.md section 7 and spec/70_reset_and_hazards.md section 1: before the first START the core is Idle
(decision D12). The spec leaves memory, acc and pc unspecified there; that memory lists nothing is the model's choice (log
2), and so are the values of acc and pc that satisfy the invariant (log 3) and the empty outside world (logs 5 to 7, 9).
-/
def Obligations.ResetSatisfiesTheInvariant : Prop :=
  Inv State.reset ∧ State.reset.status = .idle ∧ State.reset.mem = []

/-- spec/10_state.md sections 2 to 5 (acc in D at every step boundary, pc in 0..100, every cell in D) and the table of
spec/60_exceptions.md section 1, with the memory's canonical form (log 2) and the legal transaction in progress (log 6):
every step keeps them. -/
def Obligations.EveryStepKeepsTheInvariant : Prop :=
  ∀ s t : State, Inv s → step s = .next t → Inv t

/-- spec/40_cycle.md section 5 (derived there): a Running core always answers a next state, faults of the machine being
next states, and so are the waits in a transaction (logs 5, 6). The quiescent clause rests on spec/70_reset_and_hazards.md
sections 2 and 3 and on the model's choices: a step with no host move pending answers the same state (log 8), and which
host moves are refused (logs 2, 7). -/
def Obligations.LegalCoreAlwaysSteps : Prop :=
  ∀ s : State, Inv s →
    (s.status = .running → ∃ t, step s = .next t) ∧
    (s.status.quiescent = true →
      (∀ a v rest, s.hostMoves = .write a v :: rest → a ≤ 99 ∧ InDomain v) →
      (∀ entry rest, s.hostMoves = .start entry :: rest → 0 ≤ entry → entry ≤ 99 → s.mem.full = true) →
      ∃ t, step s = .next t)

/-- spec/40_cycle.md sections 1 and 4: a run launched on a full image, with any entry, any inputs and any answers of the
sink, goes on for any number of steps without a stop of the model, in legal states only. Its steps after Halted or Faulted
answer the same state by the model's choice (log 8); its waits and the pending START are logs 5 to 7. -/
def Obligations.LaunchedRunNeverStops : Prop :=
  ∀ (k : Nat) (s : State) (entry : Int), Inv s → s.status.quiescent = true → s.mem.full = true →
    s.hostMoves = [.start entry] → ∃ t, Sys2Proof.core.run k s = .next t ∧ Inv t

/-- spec/10_state.md section 5 (decision D6) and spec/40_cycle.md section 4 (a run ends normally exactly when HRS is
executed): only START moves the status to Running, only HRS moves it to Halted, only START moves a quiescent core out of
its status (the host's list of moves: log 7). -/
def Obligations.OnlyStartRunsAndOnlyHrsHalts : Prop :=
  ∀ s t : State, step s = .next t → t.status ≠ s.status →
    (t.status = .running → ∃ entry rest, s.hostMoves = .start entry :: rest ∧ 0 ≤ entry ∧ entry ≤ 99) ∧
    (t.endedNormally → s.fetching ∧ ∃ aa w, s.mem.read s.pc = some w ∧ decode w = .ok (.hrs aa)) ∧
    (s.status.quiescent = true → ∃ entry rest, s.hostMoves = .start entry :: rest) ∧
    t.status ≠ .idle

/-- spec/60_exceptions.md sections 1 and 2 (decisions D4 to D6, D9): a run that faults faulted for one of four causes,
with that cause's record, and acc and memory as they were before the step; pc is p for F1 and F5 and p + 1 for F3 and F4.
The answers as lists and a failure after a wait are logs 5 and 6. -/
def Obligations.EveryFaultOfARunIsPrecise : Prop :=
  ∀ (s t : State) (code : FaultCode) (fpc : Int) (fword : Option Int), Inv s → s.status = .running →
    step s = .next t → t.status = .faulted code fpc fword →
    t.acc = s.acc ∧ t.mem = s.mem ∧ t.output = s.output ∧ t.inputsUsed = s.inputsUsed ∧ t.held = none ∧
    ((code = .pcOutOfRange ∧ s.held = none ∧ s.pc = 100 ∧ t.pc = 100 ∧ fpc = 100 ∧ fword = none) ∨
     (code = .invalidOpcode ∧ s.held = none ∧ t.pc = s.pc ∧ s.pc ≤ 99 ∧ fpc = s.pc ∧
       ∃ w, s.mem.read s.pc = some w ∧ w < 0 ∧ fword = some w) ∨
     (code = .inputFailure ∧ ∃ p aa rest, s.inputs = .fail :: rest ∧ t.inputs = rest ∧ fpc = (p : Nat) ∧
       aa ≤ 99 ∧ s.mem.read p = some (encode (.inp aa)) ∧ fword = some (encode (.inp aa)) ∧ t.pc = p + 1 ∧
       (s.held = some (.input p aa) ∨ (s.held = none ∧ s.pc = p))) ∨
     (code = .outputFailure ∧ ∃ p aa rest, s.outAnswers = .fail :: rest ∧ t.outAnswers = rest ∧ fpc = (p : Nat) ∧
       aa ≤ 99 ∧ s.mem.read p = some (encode (.out aa)) ∧ fword = some (encode (.out aa)) ∧ t.pc = p + 1 ∧
       ((∃ v, s.held = some (.output p aa v)) ∨ (s.held = none ∧ s.pc = p))))

/-- spec/20_memory.md section 3 (conflict C4): a cell changes only by STO, by INP, by JMP (cell 99), by START (cell 0) or
by a host write (an INP that completes after a wait: log 6; the host's list of moves: log 7). -/
def Obligations.OnlyTheFourWritersChangeMemory : Prop :=
  ∀ (s t : State) (a : Nat), step s = .next t → t.mem.read a ≠ s.mem.read a →
    (s.fetching ∧ ∃ w, s.mem.read s.pc = some w ∧
      (decode w = .ok (.sto a) ∨ decode w = .ok (.inp a) ∨ (a = 99 ∧ ∃ aa, decode w = .ok (.jmp aa)))) ∨
    (s.status = .running ∧ ∃ p, s.held = some (.input p a)) ∨
    (s.status.quiescent = true ∧
      ((∃ v rest, s.hostMoves = .write a v :: rest) ∨ (a = 0 ∧ ∃ entry rest, s.hostMoves = .start entry :: rest)))

/-- spec/40_cycle.md section 5, the frame of CLA, ADD, SUB, SFT, TAC and HRS: no cell, no port and no host move changes;
the accumulator only by the first four; the status only by HRS. -/
def Obligations.RegisterInstructionsFrame : Prop :=
  ∀ (i : Instr) (aa l r : Nat) (s t : State),
    (i = .cla aa ∨ i = .add aa ∨ i = .sub aa ∨ i = .sft l r ∨ i = .tac aa ∨ i = .hrs aa) →
    InDomain s.acc → exec i s = .next t →
    (∀ b, t.mem.read b = s.mem.read b) ∧ t.held = s.held ∧ t.inputs = s.inputs ∧ t.inputsUsed = s.inputsUsed ∧
    t.outAnswers = s.outAnswers ∧ t.output = s.output ∧ t.hostMoves = s.hostMoves ∧
    (i = .tac aa ∨ i = .hrs aa → t.acc = s.acc) ∧
    (i ≠ .hrs aa → t.status = s.status) ∧ (i = .hrs aa → t.status = .halted)

/-- spec/40_cycle.md section 5, the frame of STO, INP and JMP: outside the one cell stored to (the operand's address, or
cell 99) every cell reads as before; the accumulator stays; only INP touches the input port, and only a failed INP changes
the status (the answers as lists and the wait: logs 5, 6). -/
def Obligations.StoringInstructionsFrame : Prop :=
  ∀ (aa : Nat) (s t : State), InDomain s.acc →
    (exec (.sto aa) s = .next t →
      (∀ b, b ≠ dataAddress aa → t.mem.read b = s.mem.read b) ∧ t.acc = s.acc ∧ t.status = s.status ∧
      t.held = s.held ∧ t.inputs = s.inputs ∧ t.inputsUsed = s.inputsUsed ∧ t.outAnswers = s.outAnswers ∧
      t.output = s.output ∧ t.hostMoves = s.hostMoves) ∧
    (exec (.jmp aa) s = .next t →
      (∀ b, b ≠ Config.returnCell → t.mem.read b = s.mem.read b) ∧ t.acc = s.acc ∧ t.status = s.status ∧
      t.held = s.held ∧ t.inputs = s.inputs ∧ t.inputsUsed = s.inputsUsed ∧ t.outAnswers = s.outAnswers ∧
      t.output = s.output ∧ t.hostMoves = s.hostMoves) ∧
    (exec (.inp aa) s = .next t →
      (∀ b, b ≠ dataAddress aa → t.mem.read b = s.mem.read b) ∧ t.acc = s.acc ∧ t.outAnswers = s.outAnswers ∧
      t.output = s.output ∧ t.hostMoves = s.hostMoves ∧
      (t.status = s.status ∨ t.status = .faulted .inputFailure s.pc (some (aa : Int))))

/-- spec/40_cycle.md section 5, the frame of OUT: no cell, no input and no host move changes, nor does the accumulator;
the history only grows by the cell's value, or not at all (the answers as lists and the wait: logs 5, 6). -/
def Obligations.OutFrame : Prop :=
  ∀ (aa : Nat) (s t : State), InDomain s.acc → exec (.out aa) s = .next t →
    (∀ b, t.mem.read b = s.mem.read b) ∧ t.acc = s.acc ∧ t.inputs = s.inputs ∧ t.inputsUsed = s.inputsUsed ∧
    t.hostMoves = s.hostMoves ∧
    (t.status = s.status ∨ t.status = .faulted .outputFailure s.pc (some (500 + (aa : Int)))) ∧
    (t.output = s.output ∨ ∃ v, s.mem.read (dataAddress aa) = some v ∧ t.output = s.output ++ [v])

/-- spec/40_cycle.md section 4, determinism, first sentence, and spec/10_state.md section 6 (the output history is never
read): a step of a run depends on acc, pc, memory and what the ports answer, and on nothing else (the answers as lists and
the transaction in progress: logs 5, 6). -/
def Obligations.StepDependsOnlyOnStateAndAnswers : Prop :=
  ∀ s t s' : State, s.status = .running → t.status = .running → s.acc = t.acc → s.pc = t.pc → s.mem = t.mem →
    s.held = t.held → s.inputs = t.inputs → s.outAnswers = t.outAnswers → step s = .next s' →
    ∃ t', step t = .next t' ∧ t'.acc = s'.acc ∧ t'.pc = s'.pc ∧ t'.mem = s'.mem ∧ t'.status = s'.status ∧
      t'.held = s'.held ∧ t'.inputs = s'.inputs ∧ t'.outAnswers = s'.outAnswers ∧
      ∀ new, s'.output = s.output ++ new → t'.output = t.output ++ new

/-- spec/40_cycle.md section 4, determinism, and spec/70_reset_and_hazards.md section 3 (decision D13: nothing but memory
survives into the next run): two launches from equal images with equal answers of the ports and the same entry are the
same run, step for step, whatever acc, pc, status, fault record and history the cores were left with. That the history and
the count of inputs do not matter holds because START begins both anew, which is the model's reading (log 9, DEDUCED); the
answers and the host's moves as lists are logs 5 and 7. -/
def Obligations.SameImageAndAnswersGiveTheSameRun : Prop :=
  ∀ (k : Nat) (s t : State) (entry : Int) (rest : List HostMove), 0 ≤ entry → entry ≤ 99 →
    s.status.quiescent = true → t.status.quiescent = true → s.mem = t.mem → s.inputs = t.inputs →
    s.outAnswers = t.outAnswers → s.hostMoves = .start entry :: rest → t.hostMoves = .start entry :: rest →
    Sys2Proof.core.run (k + 1) s = Sys2Proof.core.run (k + 1) t
end

