-- ==== Sys2Proof/Laws/Arith.lean ====
section
/-! SUPPORT. The laws of the reduction that the other proofs cite. -/

namespace Sys2Proof.Machine

/-- The reduction is the remainder of the truncating division by 1000. -/
theorem red_eq (v : Int) : red v = Int.tmod v 1000 := rfl

/-- What the reduction gives on each side of zero, in the terms omega reads. -/
theorem red_cases (v : Int) : (0 ≤ v ∧ red v = v % 1000) ∨ (v < 0 ∧ red v = -((-v) % 1000)) := by
  rw [red_eq]
  rcases Int.lt_or_le v 0 with h | h
  · right
    refine ⟨h, ?_⟩
    have : v.tmod 1000 = -((-v).tmod 1000) := by rw [Int.neg_tmod, neg_neg]
    rw [this, Int.tmod_eq_emod_of_nonneg (by omega)]
  · left
    exact ⟨h, Int.tmod_eq_emod_of_nonneg h⟩

/-- Every reduced value is in D. -/
theorem inDomain_red (v : Int) : InDomain (red v) := by
  rcases red_cases v with ⟨_, h⟩ | ⟨_, h⟩ <;> rw [h] <;> constructor <;> omega

/-- The reduction leaves a value of D as it is. -/
theorem red_of_inDomain {v : Int} (h : InDomain v) : red v = v := by
  obtain ⟨h₁, h₂⟩ := h
  rcases red_cases v with ⟨_, h⟩ | ⟨_, h⟩ <;> rw [h] <;> omega

end Sys2Proof.Machine
end

