-- ==== Sys2Proof/Laws/Decode.lean ====
section
/-! SUPPORT. What the decoder answers, said once. -/

namespace Sys2Proof

@[simp] theorem wellFormed_inp (aa : Nat) : WellFormed (.inp aa) ↔ aa ≤ 99 := decide_eq_true_iff
@[simp] theorem wellFormed_cla (aa : Nat) : WellFormed (.cla aa) ↔ aa ≤ 99 := decide_eq_true_iff
@[simp] theorem wellFormed_add (aa : Nat) : WellFormed (.add aa) ↔ aa ≤ 99 := decide_eq_true_iff
@[simp] theorem wellFormed_tac (aa : Nat) : WellFormed (.tac aa) ↔ aa ≤ 99 := decide_eq_true_iff
@[simp] theorem wellFormed_out (aa : Nat) : WellFormed (.out aa) ↔ aa ≤ 99 := decide_eq_true_iff
@[simp] theorem wellFormed_sto (aa : Nat) : WellFormed (.sto aa) ↔ aa ≤ 99 := decide_eq_true_iff
@[simp] theorem wellFormed_sub (aa : Nat) : WellFormed (.sub aa) ↔ aa ≤ 99 := decide_eq_true_iff
@[simp] theorem wellFormed_jmp (aa : Nat) : WellFormed (.jmp aa) ↔ aa ≤ 99 := decide_eq_true_iff
@[simp] theorem wellFormed_hrs (aa : Nat) : WellFormed (.hrs aa) ↔ aa ≤ 99 := decide_eq_true_iff
@[simp] theorem wellFormed_sft (l r : Nat) : WellFormed (.sft l r) ↔ l ≤ 9 ∧ r ≤ 9 := by
  simp only [WellFormed, wellFormed, Bool.and_eq_true, decide_eq_true_eq]

/-- The fields are the digit slices of R9 and R74: the opcode is `dig[2:2]`, the address `dig[1:0]`, SFT's counts
`dig[1:1]` and `dig[0:0]`. -/
theorem fields_eq_digitSlice {w : Nat} (h : w ≤ 999) :
    opcodeField w = digitSlice 2 2 w ∧ addressField w = digitSlice 1 0 w ∧ leftField w = digitSlice 1 1 w ∧
      rightField w = digitSlice 0 0 w := by
  simp only [opcodeField, addressField, leftField, rightField, digitSlice, Config.opcodeScale]
  omega

/-- A word the decoder accepts lies in 0..999, gives a well-formed instruction, and is that instruction's encoding. -/
theorem decode_ok {w : Int} {i : Instr} (h : decode w = .ok i) :
    0 ≤ w ∧ w ≤ 999 ∧ WellFormed i ∧ encode i = w := by
  unfold decode at h
  split at h
  · cases h
  · rename_i hw
    simp only [Config.wordMax, not_or, not_lt] at hw
    obtain ⟨n, rfl⟩ := Int.eq_ofNat_of_zero_le hw.1
    refine ⟨hw.1, hw.2, ?_⟩
    simp only [Int.toNat_natCast, opcodeField, Config.opcodeScale] at h
    split at h <;> cases h <;> rename_i ho <;>
      simp [encode, Instr.opcode, Instr.address, leftField, rightField, addressField] <;> omega

/-- A word the decoder rejects lies outside 0..999 and is named in the rejection. -/
theorem decode_error {w : Int} {e : DecodeReject} (h : decode w = .error e) :
    (w < 0 ∨ 999 < w) ∧ e = .invalidOpcode w := by
  unfold decode at h
  split at h
  · cases h; exact ⟨‹_›, rfl⟩
  · rename_i hw
    simp only [Config.wordMax, not_or, not_lt] at hw
    have : w.toNat / 100 ≤ 9 := by omega
    simp only [opcodeField, Config.opcodeScale] at h
    interval_cases hn : w.toNat / 100 <;> simp at h

end Sys2Proof
end

