-- ==== Sys2Proof/Laws/State.lean ====
section
/-! SUPPORT. One lemma per field per update of State, each true by rfl. -/

namespace Sys2Proof.Machine

variable (s : State)

@[simp] theorem State.setAcc_acc (x : Int) : (s.setAcc x).acc = x := rfl
@[simp] theorem State.setAcc_pc (x : Int) : (s.setAcc x).pc = s.pc := rfl
@[simp] theorem State.setAcc_mem (x : Int) : (s.setAcc x).mem = s.mem := rfl
@[simp] theorem State.setAcc_status (x : Int) : (s.setAcc x).status = s.status := rfl
@[simp] theorem State.setAcc_held (x : Int) : (s.setAcc x).held = s.held := rfl
@[simp] theorem State.setAcc_inputs (x : Int) : (s.setAcc x).inputs = s.inputs := rfl
@[simp] theorem State.setAcc_inputsUsed (x : Int) : (s.setAcc x).inputsUsed = s.inputsUsed := rfl
@[simp] theorem State.setAcc_outAnswers (x : Int) : (s.setAcc x).outAnswers = s.outAnswers := rfl
@[simp] theorem State.setAcc_output (x : Int) : (s.setAcc x).output = s.output := rfl
@[simp] theorem State.setAcc_hostMoves (x : Int) : (s.setAcc x).hostMoves = s.hostMoves := rfl

@[simp] theorem State.setPc_acc (x : Nat) : (s.setPc x).acc = s.acc := rfl
@[simp] theorem State.setPc_pc (x : Nat) : (s.setPc x).pc = x := rfl
@[simp] theorem State.setPc_mem (x : Nat) : (s.setPc x).mem = s.mem := rfl
@[simp] theorem State.setPc_status (x : Nat) : (s.setPc x).status = s.status := rfl
@[simp] theorem State.setPc_held (x : Nat) : (s.setPc x).held = s.held := rfl
@[simp] theorem State.setPc_inputs (x : Nat) : (s.setPc x).inputs = s.inputs := rfl
@[simp] theorem State.setPc_inputsUsed (x : Nat) : (s.setPc x).inputsUsed = s.inputsUsed := rfl
@[simp] theorem State.setPc_outAnswers (x : Nat) : (s.setPc x).outAnswers = s.outAnswers := rfl
@[simp] theorem State.setPc_output (x : Nat) : (s.setPc x).output = s.output := rfl
@[simp] theorem State.setPc_hostMoves (x : Nat) : (s.setPc x).hostMoves = s.hostMoves := rfl

@[simp] theorem State.setMem_acc (x : Memory) : (s.setMem x).acc = s.acc := rfl
@[simp] theorem State.setMem_pc (x : Memory) : (s.setMem x).pc = s.pc := rfl
@[simp] theorem State.setMem_mem (x : Memory) : (s.setMem x).mem = x := rfl
@[simp] theorem State.setMem_status (x : Memory) : (s.setMem x).status = s.status := rfl
@[simp] theorem State.setMem_held (x : Memory) : (s.setMem x).held = s.held := rfl
@[simp] theorem State.setMem_inputs (x : Memory) : (s.setMem x).inputs = s.inputs := rfl
@[simp] theorem State.setMem_inputsUsed (x : Memory) : (s.setMem x).inputsUsed = s.inputsUsed := rfl
@[simp] theorem State.setMem_outAnswers (x : Memory) : (s.setMem x).outAnswers = s.outAnswers := rfl
@[simp] theorem State.setMem_output (x : Memory) : (s.setMem x).output = s.output := rfl
@[simp] theorem State.setMem_hostMoves (x : Memory) : (s.setMem x).hostMoves = s.hostMoves := rfl

@[simp] theorem State.setStatus_acc (x : Status) : (s.setStatus x).acc = s.acc := rfl
@[simp] theorem State.setStatus_pc (x : Status) : (s.setStatus x).pc = s.pc := rfl
@[simp] theorem State.setStatus_mem (x : Status) : (s.setStatus x).mem = s.mem := rfl
@[simp] theorem State.setStatus_status (x : Status) : (s.setStatus x).status = x := rfl
@[simp] theorem State.setStatus_held (x : Status) : (s.setStatus x).held = s.held := rfl
@[simp] theorem State.setStatus_inputs (x : Status) : (s.setStatus x).inputs = s.inputs := rfl
@[simp] theorem State.setStatus_inputsUsed (x : Status) : (s.setStatus x).inputsUsed = s.inputsUsed := rfl
@[simp] theorem State.setStatus_outAnswers (x : Status) : (s.setStatus x).outAnswers = s.outAnswers := rfl
@[simp] theorem State.setStatus_output (x : Status) : (s.setStatus x).output = s.output := rfl
@[simp] theorem State.setStatus_hostMoves (x : Status) : (s.setStatus x).hostMoves = s.hostMoves := rfl

@[simp] theorem State.setHeld_acc (x : Option Transaction) : (s.setHeld x).acc = s.acc := rfl
@[simp] theorem State.setHeld_pc (x : Option Transaction) : (s.setHeld x).pc = s.pc := rfl
@[simp] theorem State.setHeld_mem (x : Option Transaction) : (s.setHeld x).mem = s.mem := rfl
@[simp] theorem State.setHeld_status (x : Option Transaction) : (s.setHeld x).status = s.status := rfl
@[simp] theorem State.setHeld_held (x : Option Transaction) : (s.setHeld x).held = x := rfl
@[simp] theorem State.setHeld_inputs (x : Option Transaction) : (s.setHeld x).inputs = s.inputs := rfl
@[simp] theorem State.setHeld_inputsUsed (x : Option Transaction) : (s.setHeld x).inputsUsed = s.inputsUsed := rfl
@[simp] theorem State.setHeld_outAnswers (x : Option Transaction) : (s.setHeld x).outAnswers = s.outAnswers := rfl
@[simp] theorem State.setHeld_output (x : Option Transaction) : (s.setHeld x).output = s.output := rfl
@[simp] theorem State.setHeld_hostMoves (x : Option Transaction) : (s.setHeld x).hostMoves = s.hostMoves := rfl

@[simp] theorem State.setInputs_acc (x : List InAnswer) : (s.setInputs x).acc = s.acc := rfl
@[simp] theorem State.setInputs_pc (x : List InAnswer) : (s.setInputs x).pc = s.pc := rfl
@[simp] theorem State.setInputs_mem (x : List InAnswer) : (s.setInputs x).mem = s.mem := rfl
@[simp] theorem State.setInputs_status (x : List InAnswer) : (s.setInputs x).status = s.status := rfl
@[simp] theorem State.setInputs_held (x : List InAnswer) : (s.setInputs x).held = s.held := rfl
@[simp] theorem State.setInputs_inputs (x : List InAnswer) : (s.setInputs x).inputs = x := rfl
@[simp] theorem State.setInputs_inputsUsed (x : List InAnswer) : (s.setInputs x).inputsUsed = s.inputsUsed := rfl
@[simp] theorem State.setInputs_outAnswers (x : List InAnswer) : (s.setInputs x).outAnswers = s.outAnswers := rfl
@[simp] theorem State.setInputs_output (x : List InAnswer) : (s.setInputs x).output = s.output := rfl
@[simp] theorem State.setInputs_hostMoves (x : List InAnswer) : (s.setInputs x).hostMoves = s.hostMoves := rfl

@[simp] theorem State.setInputsUsed_acc (x : Nat) : (s.setInputsUsed x).acc = s.acc := rfl
@[simp] theorem State.setInputsUsed_pc (x : Nat) : (s.setInputsUsed x).pc = s.pc := rfl
@[simp] theorem State.setInputsUsed_mem (x : Nat) : (s.setInputsUsed x).mem = s.mem := rfl
@[simp] theorem State.setInputsUsed_status (x : Nat) : (s.setInputsUsed x).status = s.status := rfl
@[simp] theorem State.setInputsUsed_held (x : Nat) : (s.setInputsUsed x).held = s.held := rfl
@[simp] theorem State.setInputsUsed_inputs (x : Nat) : (s.setInputsUsed x).inputs = s.inputs := rfl
@[simp] theorem State.setInputsUsed_inputsUsed (x : Nat) : (s.setInputsUsed x).inputsUsed = x := rfl
@[simp] theorem State.setInputsUsed_outAnswers (x : Nat) : (s.setInputsUsed x).outAnswers = s.outAnswers := rfl
@[simp] theorem State.setInputsUsed_output (x : Nat) : (s.setInputsUsed x).output = s.output := rfl
@[simp] theorem State.setInputsUsed_hostMoves (x : Nat) : (s.setInputsUsed x).hostMoves = s.hostMoves := rfl

@[simp] theorem State.setOutAnswers_acc (x : List OutAnswer) : (s.setOutAnswers x).acc = s.acc := rfl
@[simp] theorem State.setOutAnswers_pc (x : List OutAnswer) : (s.setOutAnswers x).pc = s.pc := rfl
@[simp] theorem State.setOutAnswers_mem (x : List OutAnswer) : (s.setOutAnswers x).mem = s.mem := rfl
@[simp] theorem State.setOutAnswers_status (x : List OutAnswer) : (s.setOutAnswers x).status = s.status := rfl
@[simp] theorem State.setOutAnswers_held (x : List OutAnswer) : (s.setOutAnswers x).held = s.held := rfl
@[simp] theorem State.setOutAnswers_inputs (x : List OutAnswer) : (s.setOutAnswers x).inputs = s.inputs := rfl
@[simp] theorem State.setOutAnswers_inputsUsed (x : List OutAnswer) : (s.setOutAnswers x).inputsUsed = s.inputsUsed := rfl
@[simp] theorem State.setOutAnswers_outAnswers (x : List OutAnswer) : (s.setOutAnswers x).outAnswers = x := rfl
@[simp] theorem State.setOutAnswers_output (x : List OutAnswer) : (s.setOutAnswers x).output = s.output := rfl
@[simp] theorem State.setOutAnswers_hostMoves (x : List OutAnswer) : (s.setOutAnswers x).hostMoves = s.hostMoves := rfl

@[simp] theorem State.setOutput_acc (x : List Int) : (s.setOutput x).acc = s.acc := rfl
@[simp] theorem State.setOutput_pc (x : List Int) : (s.setOutput x).pc = s.pc := rfl
@[simp] theorem State.setOutput_mem (x : List Int) : (s.setOutput x).mem = s.mem := rfl
@[simp] theorem State.setOutput_status (x : List Int) : (s.setOutput x).status = s.status := rfl
@[simp] theorem State.setOutput_held (x : List Int) : (s.setOutput x).held = s.held := rfl
@[simp] theorem State.setOutput_inputs (x : List Int) : (s.setOutput x).inputs = s.inputs := rfl
@[simp] theorem State.setOutput_inputsUsed (x : List Int) : (s.setOutput x).inputsUsed = s.inputsUsed := rfl
@[simp] theorem State.setOutput_outAnswers (x : List Int) : (s.setOutput x).outAnswers = s.outAnswers := rfl
@[simp] theorem State.setOutput_output (x : List Int) : (s.setOutput x).output = x := rfl
@[simp] theorem State.setOutput_hostMoves (x : List Int) : (s.setOutput x).hostMoves = s.hostMoves := rfl

@[simp] theorem State.setHostMoves_acc (x : List HostMove) : (s.setHostMoves x).acc = s.acc := rfl
@[simp] theorem State.setHostMoves_pc (x : List HostMove) : (s.setHostMoves x).pc = s.pc := rfl
@[simp] theorem State.setHostMoves_mem (x : List HostMove) : (s.setHostMoves x).mem = s.mem := rfl
@[simp] theorem State.setHostMoves_status (x : List HostMove) : (s.setHostMoves x).status = s.status := rfl
@[simp] theorem State.setHostMoves_held (x : List HostMove) : (s.setHostMoves x).held = s.held := rfl
@[simp] theorem State.setHostMoves_inputs (x : List HostMove) : (s.setHostMoves x).inputs = s.inputs := rfl
@[simp] theorem State.setHostMoves_inputsUsed (x : List HostMove) : (s.setHostMoves x).inputsUsed = s.inputsUsed := rfl
@[simp] theorem State.setHostMoves_outAnswers (x : List HostMove) : (s.setHostMoves x).outAnswers = s.outAnswers := rfl
@[simp] theorem State.setHostMoves_output (x : List HostMove) : (s.setHostMoves x).output = s.output := rfl
@[simp] theorem State.setHostMoves_hostMoves (x : List HostMove) : (s.setHostMoves x).hostMoves = x := rfl

@[simp] theorem State.advance_acc : s.advance.acc = s.acc := rfl
@[simp] theorem State.advance_pc : s.advance.pc = s.pc + 1 := rfl
@[simp] theorem State.advance_mem : s.advance.mem = s.mem := rfl
@[simp] theorem State.advance_status : s.advance.status = s.status := rfl
@[simp] theorem State.advance_held : s.advance.held = s.held := rfl
@[simp] theorem State.advance_inputs : s.advance.inputs = s.inputs := rfl
@[simp] theorem State.advance_inputsUsed : s.advance.inputsUsed = s.inputsUsed := rfl
@[simp] theorem State.advance_outAnswers : s.advance.outAnswers = s.outAnswers := rfl
@[simp] theorem State.advance_output : s.advance.output = s.output := rfl
@[simp] theorem State.advance_hostMoves : s.advance.hostMoves = s.hostMoves := rfl

@[simp] theorem State.raise_acc (code : FaultCode) (fpc : Int) (fword : Option Int) :
    (s.raise code fpc fword).acc = s.acc := rfl
@[simp] theorem State.raise_pc (code : FaultCode) (fpc : Int) (fword : Option Int) :
    (s.raise code fpc fword).pc = s.pc := rfl
@[simp] theorem State.raise_mem (code : FaultCode) (fpc : Int) (fword : Option Int) :
    (s.raise code fpc fword).mem = s.mem := rfl
@[simp] theorem State.raise_status (code : FaultCode) (fpc : Int) (fword : Option Int) :
    (s.raise code fpc fword).status = .faulted code fpc fword := rfl
@[simp] theorem State.raise_held (code : FaultCode) (fpc : Int) (fword : Option Int) :
    (s.raise code fpc fword).held = none := rfl
@[simp] theorem State.raise_inputs (code : FaultCode) (fpc : Int) (fword : Option Int) :
    (s.raise code fpc fword).inputs = s.inputs := rfl
@[simp] theorem State.raise_inputsUsed (code : FaultCode) (fpc : Int) (fword : Option Int) :
    (s.raise code fpc fword).inputsUsed = s.inputsUsed := rfl
@[simp] theorem State.raise_outAnswers (code : FaultCode) (fpc : Int) (fword : Option Int) :
    (s.raise code fpc fword).outAnswers = s.outAnswers := rfl
@[simp] theorem State.raise_output (code : FaultCode) (fpc : Int) (fword : Option Int) :
    (s.raise code fpc fword).output = s.output := rfl
@[simp] theorem State.raise_hostMoves (code : FaultCode) (fpc : Int) (fword : Option Int) :
    (s.raise code fpc fword).hostMoves = s.hostMoves := rfl

end Sys2Proof.Machine
end

