-- ==== Sys2Proof/Laws/Memory.lean ====
section
/-! SUPPORT. The laws of memory: a read after a write, the canonical form, full memories and memories of D. -/

namespace Sys2Proof.Machine

theorem Memory.read_write_same (m : Memory) (a : Nat) (v : Int) : (m.write a v).read a = some v := by
  induction m with
  | nil => simp [Memory.write, Memory.read]
  | cons e m ih =>
    simp only [Memory.write]
    split
    · simp [Memory.read]
    · split
      · simp [Memory.read]
      · simp [Memory.read, *]

theorem Memory.read_write_other (m : Memory) {a b : Nat} (v : Int) (h : b ≠ a) :
    (m.write a v).read b = m.read b := by
  induction m with
  | nil => simp [Memory.write, Memory.read, h]
  | cons e m ih =>
    simp only [Memory.write]
    split
    · simp [Memory.read, h]
    · split
      · subst a; simp [Memory.read, h]
      · simp only [Memory.read, ih]

/-- Both read laws in one. -/
theorem Memory.read_write (m : Memory) (a b : Nat) (v : Int) :
    (m.write a v).read b = if b = a then some v else m.read b := by
  split
  · subst b; exact m.read_write_same a v
  · exact m.read_write_other v ‹_›

theorem Memory.mem_write {m : Memory} {a : Nat} {v : Int} {e : Nat × Int} (h : e ∈ m.write a v) :
    e = (a, v) ∨ e ∈ m := by
  induction m with
  | nil => simpa [Memory.write] using h
  | cons d m ih =>
    simp only [Memory.write] at h
    split at h
    · simpa using h
    · split at h
      · rcases List.mem_cons.1 h with h | h
        · exact .inl h
        · exact .inr (List.mem_cons_of_mem _ h)
      · rcases List.mem_cons.1 h with h | h
        · exact .inr (h ▸ List.mem_cons_self)
        · exact (ih h).imp id (List.mem_cons_of_mem _)

/-- A write keeps the canonical form. -/
theorem Memory.write_wf {m : Memory} (hm : m.wf) {a : Nat} (v : Int) (ha : a < 100) : (m.write a v).wf := by
  refine ⟨?_, fun e he => ?_⟩
  · have hs := hm.1
    clear hm
    induction m with
    | nil => simp [Memory.write]
    | cons d m ih =>
      obtain ⟨hd, hs'⟩ := List.pairwise_cons.1 hs
      simp only [Memory.write]
      split
      · rename_i hlt
        refine List.pairwise_cons.2 ⟨fun e he => ?_, hs⟩
        rcases List.mem_cons.1 he with rfl | he
        · exact hlt
        · exact lt_trans hlt (hd e he)
      · split
        · rename_i heq
          exact List.pairwise_cons.2 ⟨fun e he => by simpa [heq] using hd e he, hs'⟩
        · refine List.pairwise_cons.2 ⟨fun e he => ?_, ih hs'⟩
          rcases Memory.mem_write he with rfl | he
          · simp only; omega
          · exact hd e he
  · rcases Memory.mem_write he with rfl | he
    · simpa using ha
    · exact hm.2 e he

/-- A write of a value of D keeps every value in D. -/
theorem Memory.write_inDomain {m : Memory} (hm : m.inDomain = true) (a : Nat) {v : Int} (hv : InDomain v) :
    (m.write a v).inDomain = true := by
  simp only [Memory.inDomain, List.all_eq_true, decide_eq_true_eq] at *
  intro e he
  rcases Memory.mem_write he with rfl | he
  · exact hv
  · exact hm e he

theorem Memory.mem_of_read {m : Memory} {a : Nat} {v : Int} (h : m.read a = some v) : (a, v) ∈ m := by
  induction m with
  | nil => simp [Memory.read] at h
  | cons e m ih =>
    obtain ⟨b, w⟩ := e
    simp only [Memory.read] at h
    split at h
    · simp_all
    · exact List.mem_cons_of_mem _ (ih h)

/-- A value read from a memory of D is in D. -/
theorem Memory.inDomain_of_read {m : Memory} (hm : m.inDomain = true) {a : Nat} {v : Int}
    (h : m.read a = some v) : InDomain v := by
  simp only [Memory.inDomain, List.all_eq_true, decide_eq_true_eq] at hm
  exact hm _ (Memory.mem_of_read h)

/-- In a full memory every cell holds a value. -/
theorem Memory.read_of_full {m : Memory} (hm : m.full = true) {a : Nat} (ha : a < 100) : ∃ v, m.read a = some v := by
  simp only [Memory.full, List.all_eq_true, List.mem_range] at hm
  exact Option.isSome_iff_exists.1 (hm a ha)

/-- A memory in the canonical form lists at most the 100 cells. -/
theorem Memory.length_le_of_wf {m : Memory} (hm : m.wf) : m.length ≤ 100 := by
  have hnodup : (m.map Prod.fst).Nodup := List.pairwise_map.2 (hm.1.imp fun h => h.ne)
  have hsub : m.map Prod.fst ⊆ List.range 100 := by
    intro a ha
    obtain ⟨e, he, rfl⟩ := List.mem_map.1 ha
    exact List.mem_range.2 (hm.2 e he)
  simpa using (hnodup.subperm hsub).length_le

/-- A write keeps a full memory full. -/
theorem Memory.write_full {m : Memory} (hm : m.full = true) (a : Nat) (v : Int) : (m.write a v).full = true := by
  simp only [Memory.full, List.all_eq_true, List.mem_range] at *
  intro b hb
  rw [Memory.read_write]
  split
  · rfl
  · exact hm b hb

theorem Memory.read_none_of_lt {m : Memory} {a : Nat} (h : ∀ e ∈ m, a < e.1) : m.read a = none := by
  induction m with
  | nil => rfl
  | cons e m ih =>
    obtain ⟨b, w⟩ := e
    have hb : a < b := h (b, w) List.mem_cons_self
    simp only [Memory.read, if_neg hb.ne]
    exact ih fun e he => h e (List.mem_cons_of_mem _ he)

/-- The form is canonical: two memories in it that read alike are equal data. -/
theorem Memory.eq_of_read {m n : Memory} (hm : m.wf) (hn : n.wf) (h : ∀ a, m.read a = n.read a) : m = n := by
  induction m generalizing n with
  | nil =>
    cases n with
    | nil => rfl
    | cons e n => have := h e.1; simp [Memory.read] at this
  | cons d m ih =>
    cases n with
    | nil => have := h d.1; simp [Memory.read] at this
    | cons e n =>
      obtain ⟨a, v⟩ := d
      obtain ⟨b, w⟩ := e
      obtain ⟨hd, hm'⟩ := List.pairwise_cons.1 hm.1
      obtain ⟨he, hn'⟩ := List.pairwise_cons.1 hn.1
      have hab : a = b := by
        rcases Nat.lt_trichotomy a b with hlt | heq | hlt
        · have := h a
          rw [Memory.read_none_of_lt (m := (b, w) :: n)] at this
          · simp [Memory.read] at this
          · intro e hmem
            rcases List.mem_cons.1 hmem with rfl | hmem
            · exact hlt
            · exact lt_trans hlt (he e hmem)
        · exact heq
        · have := h b
          rw [Memory.read_none_of_lt (m := (a, v) :: m)] at this
          · simp [Memory.read] at this
          · intro e hmem
            rcases List.mem_cons.1 hmem with rfl | hmem
            · exact hlt
            · exact lt_trans hlt (hd e hmem)
      subst hab
      have hvw : v = w := by simpa [Memory.read] using h a
      subst hvw
      congr 1
      refine ih ⟨hm', fun e h => hm.2 e (List.mem_cons_of_mem _ h)⟩ ⟨hn', fun e h => hn.2 e (List.mem_cons_of_mem _ h)⟩
        fun c => ?_
      rcases eq_or_ne c a with rfl | hc
      · rw [Memory.read_none_of_lt hd, Memory.read_none_of_lt he]
      · simpa [Memory.read, hc] using h c

/-- Reading one cell out of a list made cell by cell. -/
theorem Memory.read_map (f : Nat → Int) (l : List Nat) (a : Nat) :
    Memory.read (l.map fun b => (b, f b)) a = if a ∈ l then some (f a) else none := by
  induction l with
  | nil => rfl
  | cons b l ih =>
    rcases eq_or_ne a b with rfl | h
    · simp [Memory.read]
    · simp [Memory.read, h, ih]

/-- What the load that `State.withFetchWord` stands for leaves in a cell. -/
theorem Memory.read_fillUnused (m : Memory) {a : Nat} (ha : a < 100) :
    m.fillUnused.read a = some ((m.read a).getD 0) := by
  rw [Memory.fillUnused, Memory.read_map (fun b => (m.read b).getD Config.unusedCell)]
  simp [ha]

/-- That load gives the canonical form, whatever it started from. -/
theorem Memory.fillUnused_wf (m : Memory) : m.fillUnused.wf := by
  refine ⟨?_, fun e he => ?_⟩
  · simpa [Memory.fillUnused, List.pairwise_map] using List.pairwise_lt_range (n := 100)
  · simp only [Memory.fillUnused, List.mem_map, List.mem_range] at he
    obtain ⟨a, ha, rfl⟩ := he
    exact ha

/-- After that load every cell holds a value. -/
theorem Memory.fillUnused_full (m : Memory) : m.fillUnused.full = true := by
  simp only [Memory.full, List.all_eq_true, List.mem_range]
  intro a ha
  rw [Memory.read_fillUnused m ha]
  rfl

end Sys2Proof.Machine
end

