-- ==== Sys2Proof/Laws/Ops.lean ====
section
/-! SUPPORT. One lemma per shared operation that says everything it can do, and one for the step. -/

namespace Sys2Proof.Machine

variable {s t : State}

@[simp] theorem dataAddress_eq (aa : Nat) : dataAddress aa = aa := rfl
@[simp] theorem branchTarget_eq (aa : Nat) : branchTarget aa = aa := rfl

/-- A read of a cell that holds a value goes on with it. -/
theorem State.loadThen_of_read {a : Nat} {v : Int} {k : Int → Result} (ha : a < 100)
    (hr : s.mem.read a = some v) : s.loadThen a k = k v := by
  simp [State.loadThen, ha, hr]

/-- A read that goes on to a next state read a cell that holds a value. -/
theorem State.loadThen_next {a : Nat} {k : Int → Result} (h : s.loadThen a k = .next t) :
    a < 100 ∧ ∃ v, s.mem.read a = some v ∧ k v = .next t := by
  unfold State.loadThen at h
  split at h
  · split at h
    · exact ⟨‹_›, _, ‹_›, h⟩
    · cases h
  · cases h

/-- A write to one of the 100 cells goes on with the memory so written. -/
theorem State.storeThen_of_lt {a : Nat} {v : Int} {k : State → Result} (ha : a < 100) :
    s.storeThen a v k = k (s.setMem (s.mem.write a v)) := by
  simp [State.storeThen, ha]

/-- A write that goes on to a next state wrote one of the 100 cells. -/
theorem State.storeThen_next {a : Nat} {v : Int} {k : State → Result} (h : s.storeThen a v k = .next t) :
    a < 100 ∧ k (s.setMem (s.mem.write a v)) = .next t := by
  unfold State.storeThen at h
  split at h
  · exact ⟨‹_›, h⟩
  · cases h

/-- The end of a step reduces the accumulator and changes nothing else. -/
theorem State.finish_next (h : s.finish = .next t) : t = s.setAcc (red s.acc) := by
  cases h; rfl

/-- The end of a step whose accumulator is in D changes nothing. -/
theorem State.finish_of_inDomain (h : InDomain s.acc) : s.finish = .next s := by
  simp [State.finish, red_of_inDomain h, State.setAcc]

/-- Everything an `In()` transaction can do: wait, fail, or store a reduced value. -/
theorem State.answerInput_next {p aa : Nat} (h : s.answerInput p aa = .next t) :
    (s.inputs = [] ∧ t = s.setHeld (some (.input p aa))) ∨
    (∃ rest, s.inputs = .delay :: rest ∧ t = (s.setInputs rest).setHeld (some (.input p aa))) ∨
    (∃ rest, s.inputs = .fail :: rest ∧
      t = (s.setInputs rest).raise .inputFailure p (some (encode (.inp aa)))) ∨
    (∃ v rest, s.inputs = .value v :: rest ∧ aa < 100 ∧
      t = (((((s.setInputs rest).setInputsUsed (s.inputsUsed + 1)).setHeld none).setMem
        (s.mem.write aa (red v))).setAcc (red s.acc))) := by
  unfold State.answerInput at h
  split at h
  · cases h; exact .inl ⟨‹_›, rfl⟩
  · cases h; exact .inr (.inl ⟨_, ‹_›, rfl⟩)
  · cases h; exact .inr (.inr (.inl ⟨_, ‹_›, rfl⟩))
  · obtain ⟨ha, h⟩ := State.storeThen_next h
    cases h
    exact .inr (.inr (.inr ⟨_, _, ‹_›, ha, rfl⟩))

/-- Everything an `Out(v)` transaction can do: wait, fail, or hand the value over. It always answers a next state. -/
theorem State.answerOutput_next (p aa : Nat) (v : Int) :
    ∃ t, s.answerOutput p aa v = .next t ∧
    ((s.outAnswers = [] ∧ t = s.setHeld (some (.output p aa v))) ∨
    (∃ rest, s.outAnswers = .delay :: rest ∧ t = (s.setOutAnswers rest).setHeld (some (.output p aa v))) ∨
    (∃ rest, s.outAnswers = .fail :: rest ∧
      t = (s.setOutAnswers rest).raise .outputFailure p (some (encode (.out aa)))) ∨
    (∃ rest, s.outAnswers = .ok :: rest ∧
      t = ((((s.setOutAnswers rest).setOutput (s.output ++ [v])).setHeld none).setAcc (red s.acc)))) := by
  unfold State.answerOutput
  split
  · exact ⟨_, rfl, .inl ⟨‹_›, rfl⟩⟩
  · exact ⟨_, rfl, .inr (.inl ⟨_, ‹_›, rfl⟩)⟩
  · exact ⟨_, rfl, .inr (.inr (.inl ⟨_, ‹_›, rfl⟩))⟩
  · exact ⟨_, rfl, .inr (.inr (.inr ⟨_, ‹_›, rfl⟩))⟩

/-- A quiescent core leaves the step to the host. -/
theorem step_of_not_running (h : s.status ≠ .running) : step s = s.hostTurn := by
  unfold step State.nextAction
  cases hs : s.status <;> simp_all

/-- A core held in a transaction asks its port again. -/
theorem step_of_held {x : Transaction} (hs : s.status = .running) (hh : s.held = some x) : step s = s.resume x := by
  simp [step, State.nextAction, hs, hh]

/-- A Running core in no transaction does what its fetch and decode say. -/
theorem step_of_fetching (hs : s.status = .running) (hh : s.held = none) :
    step s = match s.fetchDecode with
      | .run i => exec i s
      | .settle o => o := by
  cases hf : s.fetchDecode <;> simp [step, State.nextAction, hs, hh, hf]

/-- A fetched word that decodes to an instruction is executed. -/
theorem step_of_decode {w : Int} {i : Instr} (hs : s.status = .running) (hh : s.held = none) (hp : s.pc < 100)
    (hr : s.mem.read s.pc = some w) (hd : decode w = .ok i) : step s = exec i s := by
  simp [step_of_fetching hs hh, State.fetchDecode, hp, hr, hd]

/-- Everything a step that answers a next state can be. -/
theorem step_next (h : step s = .next t) :
    (s.status ≠ .running ∧ s.hostTurn = .next t) ∨
    (s.status = .running ∧ ∃ x, s.held = some x ∧ s.resume x = .next t) ∨
    (s.status = .running ∧ s.held = none ∧ 100 ≤ s.pc ∧ t = s.raise .pcOutOfRange s.pc none) ∨
    (s.status = .running ∧ s.held = none ∧ s.pc < 100 ∧ ∃ w e, s.mem.read s.pc = some w ∧ decode w = .error e ∧
      t = s.raise .invalidOpcode s.pc (some w)) ∨
    (s.status = .running ∧ s.held = none ∧ s.pc < 100 ∧ ∃ w i, s.mem.read s.pc = some w ∧ decode w = .ok i ∧
      exec i s = .next t) := by
  by_cases hs : s.status = .running
  · right
    cases hh : s.held with
    | some x => rw [step_of_held hs hh] at h; exact .inl ⟨hs, x, rfl, h⟩
    | none =>
      right
      rw [step_of_fetching hs hh] at h
      by_cases hp : s.pc < 100
      · right
        cases hr : s.mem.read s.pc with
        | none => simp [State.fetchDecode, hp, hr] at h
        | some w =>
          cases hd : decode w with
          | error e =>
            simp only [State.fetchDecode, Config.memCells, hp, hr, hd, if_true] at h
            cases h
            exact .inl ⟨hs, rfl, hp, w, e, rfl, hd, rfl⟩
          | ok i =>
            simp only [State.fetchDecode, Config.memCells, hp, hr, hd, if_true] at h
            exact .inr ⟨hs, rfl, hp, w, i, rfl, hd, h⟩
      · simp only [State.fetchDecode, Config.memCells, hp, if_false] at h
        cases h
        exact .inl ⟨hs, rfl, by omega, rfl⟩
  · rw [step_of_not_running hs] at h
    exact .inl ⟨hs, h⟩

/-- Everything a host turn can do: nothing, write a cell, take F2, or begin a run. -/
theorem State.hostTurn_next (h : s.hostTurn = .next t) :
    (s.hostMoves = [] ∧ t = s) ∨
    (∃ a v rest, s.hostMoves = .write a v :: rest ∧ a < 100 ∧ InDomain v ∧
      t = (s.setHostMoves rest).setMem (s.mem.write a v)) ∨
    (∃ entry rest, s.hostMoves = .start entry :: rest ∧ (entry < 0 ∨ 99 < entry) ∧
      t = (s.setHostMoves rest).raise .startPcOutOfRange entry none) ∨
    (∃ entry rest, s.hostMoves = .start entry :: rest ∧ 0 ≤ entry ∧ entry ≤ 99 ∧ s.mem.full = true ∧
      s.mem.length ≤ 100 ∧ s.mem.inDomain = true ∧ t = (s.setHostMoves rest).startRun entry.toNat) := by
  unfold State.hostTurn at h
  split at h
  · cases h; exact .inl ⟨‹_›, rfl⟩
  · unfold State.hostWrite at h
    split at h
    · split at h
      · cases h
        exact .inr (.inl ⟨_, _, _, ‹_›, ‹_›, ‹_›, rfl⟩)
      · cases h
    · cases h
  · unfold State.start at h
    split at h
    · cases h
      exact .inr (.inr (.inl ⟨_, _, ‹_›, ‹_›, rfl⟩))
    · split at h
      · cases h
      · split at h
        · cases h
        · split at h
          · cases h
          · cases h
            rename_i he hf hl hd
            simp only [not_or, not_lt] at he
            simp only [State.setHostMoves_mem, Config.memCells, Bool.not_eq_false, not_lt] at hf hl hd
            exact .inr (.inr (.inr ⟨_, _, ‹s.hostMoves = _›, he.1, he.2, hf, hl, hd, rfl⟩))

end Sys2Proof.Machine
end

