-- ==== Sys2Proof/Laws/Exec.lean ====
section
/-! SUPPORT. One inversion lemma per meaning: everything it can do when it answers a next state. -/

namespace Sys2Proof.Machine

variable {s t : State}

theorem execCla_next {aa : Nat} (h : execCla aa s = .next t) :
    aa < 100 ∧ ∃ v, s.mem.read aa = some v ∧ t = s.advance.setAcc (red v) := by
  obtain ⟨ha, v, hr, h⟩ := State.loadThen_next h
  exact ⟨ha, v, hr, State.finish_next h⟩

theorem execAdd_next {aa : Nat} (h : execAdd aa s = .next t) :
    aa < 100 ∧ ∃ v, s.mem.read aa = some v ∧ t = s.advance.setAcc (red (s.acc + v)) := by
  obtain ⟨ha, v, hr, h⟩ := State.loadThen_next h
  exact ⟨ha, v, hr, State.finish_next h⟩

theorem execSub_next {aa : Nat} (h : execSub aa s = .next t) :
    aa < 100 ∧ ∃ v, s.mem.read aa = some v ∧ t = s.advance.setAcc (red (s.acc - v)) := by
  obtain ⟨ha, v, hr, h⟩ := State.loadThen_next h
  exact ⟨ha, v, hr, State.finish_next h⟩

theorem execSto_next {aa : Nat} (h : execSto aa s = .next t) :
    aa < 100 ∧ t = (s.advance.setMem (s.mem.write aa s.acc)).setAcc (red s.acc) := by
  obtain ⟨ha, h⟩ := State.storeThen_next h
  exact ⟨ha, State.finish_next h⟩

theorem execSft_next {l r : Nat} (h : execSft l r s = .next t) :
    t = s.advance.setAcc (red (digitShift l r s.acc)) := State.finish_next h

theorem execTac_next {aa : Nat} (h : execTac aa s = .next t) :
    (s.acc < 0 ∧ t = (s.setPc aa).setAcc (red s.acc)) ∨ (0 ≤ s.acc ∧ t = s.advance.setAcc (red s.acc)) := by
  unfold execTac at h
  split at h
  · rename_i hn
    exact .inl ⟨of_decide_eq_true hn, State.finish_next h⟩
  · rename_i hn
    exact .inr ⟨not_lt.1 (fun hlt => hn (decide_eq_true hlt)), State.finish_next h⟩

theorem execJmp_next {aa : Nat} (h : execJmp aa s = .next t) :
    t = ((s.setPc aa).setMem (s.mem.write 99 (returnWord (s.pc + 1)))).setAcc (red s.acc) := by
  obtain ⟨_, h⟩ := State.storeThen_next h
  exact State.finish_next h

theorem execHrs_next {aa : Nat} (h : execHrs aa s = .next t) : t = (s.setPc aa).setStatus .halted := by
  cases h; rfl

/-- INP is its transaction on the advanced state; see `State.answerInput_next`. -/
theorem execInp_eq {aa : Nat} : execInp aa s = s.advance.answerInput s.pc aa := rfl

theorem execOut_next {aa : Nat} (h : execOut aa s = .next t) :
    aa < 100 ∧ ∃ v, s.mem.read aa = some v ∧ s.advance.answerOutput s.pc aa v = .next t :=
  State.loadThen_next h

end Sys2Proof.Machine
end

