-- ==== Sys2Proof/Laws/PerInstr.lean ====
section
/-! SUPPORT. The family EncodeInRow: each instruction's word lies in its own row of the opcode table (spec/30_encoding.md
rule R65), one lemma per constructor. -/

namespace Sys2Proof.Laws.EncodeInRow

/-- The word of a well-formed instruction lies in the row of its opcode: `opcode × 100` to `opcode × 100 + 99`. -/
def Statement (i : Instr) : Prop :=
  WellFormed i → (100 * i.opcode : Int) ≤ encode i ∧ encode i ≤ 100 * i.opcode + 99

/-- The lemma behind all ten: an address field below 100 stays in its row. -/
theorem statement_of_address {i : Instr} (h : WellFormed i → i.address ≤ 99) : Statement i := by
  intro hi
  have := h hi
  simp only [encode, Config.opcodeScale, Nat.cast_add, Nat.cast_mul]
  omega

theorem inp (aa : Nat) : Statement (.inp aa) := statement_of_address (by simp [Instr.address])
theorem cla (aa : Nat) : Statement (.cla aa) := statement_of_address (by simp [Instr.address])
theorem add (aa : Nat) : Statement (.add aa) := statement_of_address (by simp [Instr.address])
theorem tac (aa : Nat) : Statement (.tac aa) := statement_of_address (by simp [Instr.address])
theorem sft (l r : Nat) : Statement (.sft l r) :=
  statement_of_address (by simp only [wellFormed_sft, Instr.address]; omega)
theorem out (aa : Nat) : Statement (.out aa) := statement_of_address (by simp [Instr.address])
theorem sto (aa : Nat) : Statement (.sto aa) := statement_of_address (by simp [Instr.address])
theorem sub (aa : Nat) : Statement (.sub aa) := statement_of_address (by simp [Instr.address])
theorem jmp (aa : Nat) : Statement (.jmp aa) := statement_of_address (by simp [Instr.address])
theorem hrs (aa : Nat) : Statement (.hrs aa) := statement_of_address (by simp [Instr.address])

end Sys2Proof.Laws.EncodeInRow
end

