-- ==== Sys2Proof/Laws/Run.lean ====
section
/-! SUPPORT. Runs of several steps, in the terms of step. -/

namespace Sys2Proof.Machine

/-- No steps leave the state as it is. -/
theorem core_run_zero (s : State) : Sys2Proof.core.run 0 s = .next s := rfl

/-- The host's run, one step at a time, for any machine. -/
theorem host_run_succ (M : Host.Core) (k : Nat) (s : M.State) :
    M.run (k + 1) s = match M.step s with
      | .next t => M.run k t
      | .fault r => .fault r
      | .refused r => .refused r := by
  cases hs : M.step s <;> simp [Host.Core.run, hs]

/-- One step, then the rest of the run. -/
theorem core_run_succ (k : Nat) (s : State) :
    Sys2Proof.core.run (k + 1) s = match step s with
      | .next t => Sys2Proof.core.run k t
      | .fault r => .fault r
      | .refused r => .refused r := by
  cases hs : step s with
  | next t => have h : Sys2Proof.core.step s = .next t := hs; exact (host_run_succ Sys2Proof.core k s).trans (by rw [h])
  | fault r => have h : Sys2Proof.core.step s = .fault r := hs; exact (host_run_succ Sys2Proof.core k s).trans (by rw [h])
  | refused r => have h : Sys2Proof.core.step s = .refused r := hs; exact (host_run_succ Sys2Proof.core k s).trans (by rw [h])

/-- A step that answers a next state goes on from it. -/
theorem core_run_of_step {k : Nat} {s t : State} (h : step s = .next t) :
    Sys2Proof.core.run (k + 1) s = Sys2Proof.core.run k t := by
  rw [core_run_succ, h]

/-- A property that every step keeps holds after any number of steps. -/
theorem core_run_invariant {P : State → Prop} (hstep : ∀ s t, P s → step s = .next t → P t) :
    ∀ (k : Nat) (s t : State), P s → Sys2Proof.core.run k s = .next t → P t := by
  intro k
  induction k with
  | zero =>
    intro s t hs h
    rw [core_run_zero] at h
    cases h
    exact hs
  | succ k ih =>
    intro s t hs h
    rw [core_run_succ] at h
    cases hst : step s with
    | next u => rw [hst] at h; exact ih u t (hstep s u hs hst) h
    | fault r => rw [hst] at h; cases h
    | refused r => rw [hst] at h; cases h

end Sys2Proof.Machine
end

