-- ==== Sys2Proof/Tests/Slice0.lean ====
section
/-! SUPPORT. Tests of single steps, with values from spec/95_test_vectors.md, the smoke test of WellFormed, and a witness for
the hypotheses of every statement that has some. -/

namespace Sys2Proof.Tests

open Sys2Proof.Machine

/-- A memory of 100 cells: those listed, every other cell 0 (the listing convention of spec/30_encoding.md rule R72). -/
def image (cells : Memory) : Memory := cells.foldl (fun m e => m.write e.1 e.2) (Memory.fillUnused [])

/-- A Running core about to fetch the word `w` at `p`, with the other cells given and no others. -/
def at' (p : Nat) (w acc : Int) (cells : Memory) : State :=
  { State.reset with
    acc := acc, pc := p, status := .running, mem := cells.foldl (fun m e => m.write e.1 e.2) [(p, w)] }

/-- The outcome is a next state with the property. -/
def ends (r : Result) (p : State → Bool) : Bool :=
  match r with
  | .next t => p t
  | .fault _ => false
  | .refused _ => false

/-! ### WellFormed refuses -/

theorem test_wellFormed_inp : wellFormed (.inp 100) = false := by decide
theorem test_wellFormed_cla : wellFormed (.cla 100) = false := by decide
theorem test_wellFormed_add : wellFormed (.add 100) = false := by decide
theorem test_wellFormed_tac : wellFormed (.tac 100) = false := by decide
theorem test_wellFormed_sft_left : wellFormed (.sft 10 0) = false := by decide
theorem test_wellFormed_sft_right : wellFormed (.sft 0 10) = false := by decide
theorem test_wellFormed_out : wellFormed (.out 100) = false := by decide
theorem test_wellFormed_sto : wellFormed (.sto 100) = false := by decide
theorem test_wellFormed_sub : wellFormed (.sub 100) = false := by decide
theorem test_wellFormed_jmp : wellFormed (.jmp 100) = false := by decide
theorem test_wellFormed_hrs : wellFormed (.hrs 100) = false := by decide

/-! ### Decoding, words written out from the spec's encoding (section 2.1 of the vectors), and encoding -/

theorem test_decode_inp : decode 001 = .ok (.inp 1) ∧ decode 099 = .ok (.inp 99) := ⟨rfl, rfl⟩
theorem test_decode_cla : decode 120 = .ok (.cla 20) := rfl
theorem test_decode_add : decode 299 = .ok (.add 99) := rfl
theorem test_decode_tac : decode 300 = .ok (.tac 0) := rfl
theorem test_decode_sft : decode 409 = .ok (.sft 0 9) ∧ decode 490 = .ok (.sft 9 0) := ⟨rfl, rfl⟩
theorem test_decode_out : decode 524 = .ok (.out 24) := rfl
theorem test_decode_sto : decode 614 = .ok (.sto 14) := rfl
theorem test_decode_sub : decode 721 = .ok (.sub 21) := rfl
theorem test_decode_jmp : decode 806 = .ok (.jmp 6) := rfl
theorem test_decode_hrs : decode 900 = .ok (.hrs 0) ∧ decode 999 = .ok (.hrs 99) := ⟨rfl, rfl⟩
theorem test_decode_rejects : decode (-1) = .error (.invalidOpcode (-1)) ∧ decode (-999) = .error (.invalidOpcode (-999)) ∧
    decode 1000 = .error (.invalidOpcode 1000) := ⟨rfl, rfl, rfl⟩
theorem test_encode : encode (.sft 2 1) = 421 ∧ encode (.jmp 10) = 810 ∧ encode (.inp 24) = 24 := by decide
theorem test_decodeTableWord : decodeTableWord 16 421 = some (.sft 2 1) ∧ decodeTableWord 16 1000 = none := ⟨rfl, rfl⟩

/-! ### One step of each instruction -/

/-- Vector I6: a negative input out of range keeps its sign. -/
theorem test_inp_negative : ends (step { at' 12 24 806 [(24, 0)] with inputs := [.value (-1666)] })
    (fun t => t.mem.read 24 == some (-666) && t.pc == 13 && t.acc == 806 && t.inputsUsed == 1) = true := by decide
/-- Vector I10: a failed input. -/
theorem test_inp_fails : ends (step { at' 12 24 806 [(24, 5)] with inputs := [.fail] })
    (fun t => t.mem.read 24 == some 5 && t.pc == 13 && t.status == .faulted .inputFailure 12 (some 24)
      && t.inputsUsed == 0) = true := by decide
/-- Vector A2. -/
theorem test_cla : ends (step (at' 10 150 (-999) [(50, 999)])) (fun t => t.acc == 999 && t.pc == 11) = true := by decide
/-- Vectors A6 and A8. -/
theorem test_add_overflow : ends (step (at' 10 250 999 [(50, 1)])) (fun t => t.acc == 0) = true ∧
    ends (step (at' 10 250 (-999) [(50, -999)])) (fun t => t.acc == -998 && t.pc == 11) = true := by decide
/-- Self-reference: `205 ADD 05` fetched from cell 05. -/
theorem test_add_own_word : ends (step (at' 5 205 1 [])) (fun t => t.acc == 206) = true := by decide
/-- Vectors T1 and T2. -/
theorem test_tac : ends (step (at' 7 310 (-1) [])) (fun t => t.pc == 10) = true ∧
    ends (step (at' 7 310 0 [])) (fun t => t.pc == 8) = true := by decide
/-- Vector T6: pc does not wrap. -/
theorem test_tac_at_99 : ends (step (at' 99 350 3 [])) (fun t => t.pc == 100 && t.status == .running) = true := by decide
/-- Vectors H14 and H7: truncation toward zero, and one late reduction. -/
theorem test_sft_truncates : ends (step (at' 10 401 (-129) [])) (fun t => t.acc == -12 && t.pc == 11) = true ∧
    ends (step (at' 10 433 123 [])) (fun t => t.acc == 123) = true := by decide
/-- Vector H31: the product is exact. -/
theorem test_sft_wide : ends (step (at' 10 498 999 [])) (fun t => t.acc == 990) = true := by decide
/-- Vector O1: the cell, not the accumulator. -/
theorem test_out : ends (step { at' 13 524 806 [(24, 666)] with outAnswers := [.ok] })
    (fun t => t.output == [666] && t.pc == 14 && t.acc == 806) = true := by decide
/-- Vector O5: a failed output (there from cell 12). -/
theorem test_out_fails : ends (step { at' 12 524 806 [(24, 666)] with outAnswers := [.fail] })
    (fun t => t.output == [] && t.pc == 13 && t.status == .faulted .outputFailure 12 (some 524)) = true := by decide
/-- `610 STO 10` fetched from cell 10 replaces itself. -/
theorem test_sto_own_cell : ends (step (at' 10 610 7 [])) (fun t => t.mem.read 10 == some 7 && t.pc == 11) = true := by decide
/-- Vectors A14 and A17. -/
theorem test_sub : ends (step (at' 10 750 5 [(50, 7)])) (fun t => t.acc == -2) = true ∧
    ends (step (at' 10 750 (-999) [(50, 1)])) (fun t => t.acc == 0 && t.pc == 11) = true := by decide
/-- Vector J1. -/
theorem test_jmp : ends (step (at' 5 810 (-90) [])) (fun t => t.mem.read 99 == some 806 && t.pc == 10 && t.acc == -90) = true := by decide
/-- Vector J5: a JMP fetched from cell 99 overwrites itself with HRS 00. -/
theorem test_jmp_at_99 : ends (step (at' 99 850 0 [])) (fun t => t.mem.read 99 == some 900 && t.pc == 50) = true := by decide
/-- Vector R3: HRS fetched from cell 99. -/
theorem test_hrs_at_99 : ends (step (at' 99 942 (-7) [])) (fun t => t.status == .halted && t.pc == 42 && t.acc == -7) = true := by decide

/-! ### Faults, START, the host -/

/-- Vector X3: not an INP with address −1. -/
theorem test_negative_word : ends (step (at' 3 (-1) 0 []))
    (fun t => t.status == .faulted .invalidOpcode 3 (some (-1)) && t.pc == 3) = true := by decide
/-- Source example S8, for a model with a wider cell type. -/
theorem test_wide_word : ends (step (at' 1 9905 0 []))
    (fun t => t.status == .faulted .invalidOpcode 1 (some 9905) && t.pc == 1) = true := by decide
/-- Vector X4. -/
theorem test_pc_100 : ends (step { State.reset with pc := 100, status := .running })
    (fun t => t.status == .faulted .pcOutOfRange 100 none && t.pc == 100) = true := by decide
/-- Vector B3: START(0), whatever the loader put in cell 0. -/
theorem test_start : ends (step { State.reset with mem := image [(0, 900)], hostMoves := [.start 0] })
    (fun t => t.status == .running && t.pc == 0 && t.acc == 0 && t.mem.read 0 == some 1) = true := by decide
/-- Vectors X5 and X6: the range check comes before everything else. -/
theorem test_start_out_of_range : ends (step { State.reset with hostMoves := [.start 100] })
    (fun t => t.status == .faulted .startPcOutOfRange 100 none && t.mem == []) = true ∧
    ends (step { State.reset with hostMoves := [.start (-1)] })
    (fun t => t.status == .faulted .startPcOutOfRange (-1) none) = true := by decide
/-- R197: an image of more than 100 cells is refused, even with all of cells 0..99 in it. -/
theorem test_start_image_too_large :
    step { State.reset with mem := image [(100, 0)], hostMoves := [.start 0] } = .refused .imageTooLarge := by rfl
/-- R178, R204: the host reads a quiescent core and not a Running one. -/
theorem test_hostRead : State.reset.hostRead.isSome = true ∧ (at' 1 900 0 []).hostRead = none := by decide
/-- R160, the numeric codes. -/
theorem test_fault_codes : [FaultCode.invalidOpcode, .startPcOutOfRange, .inputFailure, .outputFailure, .pcOutOfRange].map
    FaultCode.number = [1, 2, 3, 4, 5] := by decide
/-- The host's placing of a word: the very next step from reset runs it. -/
theorem test_withFetchWord : ends (step (State.reset.withFetchWord 16 199)) (fun t => t.pc == 2 && t.acc == 0) = true := by decide

/-! ### Witnesses: a concrete state and operands that meet the hypotheses of each statement, clause by clause -/

/-- A launched core of 100 cells about to fetch `w` at `p`. -/
def ready (p : Nat) (w acc : Int) (cells : Memory) : State :=
  { State.reset with acc := acc, pc := p, status := .running, mem := image ((p, w) :: cells) }

theorem write_legal {m : Memory} {a : Nat} {v : Int} (hm : m.wf ∧ m.inDomain = true ∧ m.full = true) (ha : a < 100)
    (hv : InDomain v) : (m.write a v).wf ∧ (m.write a v).inDomain = true ∧ (m.write a v).full = true :=
  ⟨Memory.write_wf hm.1 v ha, Memory.write_inDomain hm.2.1 a hv, Memory.write_full hm.2.2 a v⟩

theorem image_legal {cells : Memory} (h : ∀ e ∈ cells, e.1 < 100 ∧ InDomain e.2) :
    (image cells).wf ∧ (image cells).inDomain = true ∧ (image cells).full = true := by
  have h0 : (Memory.fillUnused []).wf ∧ (Memory.fillUnused []).inDomain = true ∧ (Memory.fillUnused []).full = true :=
    ⟨Memory.fillUnused_wf _, by decide, Memory.fillUnused_full _⟩
  unfold image
  generalize Memory.fillUnused [] = m at h0
  induction cells generalizing m with
  | nil => exact h0
  | cons e cells ih =>
    obtain ⟨he, hs⟩ := List.forall_mem_cons.1 h
    exact ih hs _ (write_legal h0 he.1 he.2)

/-- Every launched core so built satisfies the invariant. -/
theorem ready_inv {p : Nat} {w acc : Int} {cells : Memory} (hp : p ≤ 99) (ha : InDomain acc)
    (h : ∀ e ∈ (p, w) :: cells, e.1 < 100 ∧ InDomain e.2) : Inv (ready p w acc cells) :=
  ⟨Nat.le_succ_of_le hp, ha, (image_legal h).1, (image_legal h).2.1, fun _ => (image_legal h).2.2, rfl, rfl⟩

theorem witness_ClaLoadsTheCell : 99 ≤ 99 ∧ (at' 1 199 57 [(99, -999)]).mem.read 99 = some (-999) ∧ InDomain (-999) ∧
    InDomain 57 := by decide
theorem witness_AddLeavesTheReducedSum : 50 ≤ 99 ∧ (at' 10 250 999 [(50, 999)]).mem.read 50 = some 999 ∧
    InDomain 999 := by decide
theorem witness_SubLeavesTheReducedDifference : 50 ≤ 99 ∧ (at' 10 750 (-999) [(50, 999)]).mem.read 50 = some 999 ∧
    InDomain (-999) := by decide
/-- Sums and differences at the edges: 999 + 0, 999 + 1, 999 + 999, −999 − 1 and so on. -/
theorem witness_OverflowDropsThousandsAndKeepsSign :
    (∀ p ∈ [((999 : Int), (0 : Int)), (999, 1), (999, 999), (-999, -1), (-999, -999), (-999, 1), (999, -1), (-999, 999)],
      (at' 10 250 p.1 [(50, p.2)]).mem.read 50 = some p.2 ∧ InDomain p.1 ∧ InDomain p.2) ∧
    InDomain (999 + 0) ∧ (1000 : Int) ≤ 999 + 1 ∧ (-999 : Int) + -1 ≤ -1000 ∧
    InDomain (999 - 0) ∧ (1000 : Int) ≤ 999 - -1 ∧ (-999 : Int) - 1 ≤ -1000 := by decide
theorem witness_StoStoresTheAccumulator : 99 ≤ 99 ∧ InDomain (at' 4 699 (-90) []).acc := by decide
theorem witness_SftShiftsLeftThenRightThenReduces : 9 ≤ 9 ∧ 0 ≤ 9 := by decide
/-- The accumulator −129 is `-1 × (100 × 1 + 10 × 2 + 9)`; a pair of counts for each clause. -/
theorem witness_SftMovesTheDigits : (at' 10 401 (-129) []).acc = -1 * (100 * 1 + 10 * 2 + 9) ∧
    (3 : Nat) = 0 + 3 ∧ (2 : Nat) = 0 + 2 ∧ (1 : Nat) = 0 + 1 ∧ (9 : Nat) ≤ 9 ∧ (0 : Int) ≤ 9 := by decide
theorem witness_TacBranchesOnStrictlyNegative : (at' 7 310 (-1) []).acc < 0 ∧ 0 ≤ (at' 7 310 0 []).acc ∧
    InDomain (-1) ∧ InDomain 0 ∧ 10 ≤ 99 := by decide
theorem witness_JmpRecordsTheReturnWord : (at' 99 850 0 []).pc ≤ 99 ∧ InDomain (at' 99 850 0 []).acc ∧ 50 ≤ 99 := by decide
theorem witness_HrsHaltsTheRun : 42 ≤ 99 ∧ (at' 99 942 0 []).hostMoves = [] := by decide
theorem witness_ReturnWordDecodesToJumpBack : (∃ t, exec (.jmp 50) (at' 99 850 0 []) = .next t) ∧
    (∃ t, exec (.jmp 50) (at' 98 850 0 []) = .next t) ∧ (at' 99 850 0 []).pc = 99 ∧ (at' 98 850 0 []).pc < 99 :=
  ⟨⟨_, rfl⟩, ⟨_, rfl⟩, rfl, by decide⟩
theorem witness_ExecutedReturnWordResumesCaller : (at' 14 806 806 []).fetching ∧ InDomain (at' 14 806 806 []).acc ∧
    (at' 14 806 806 []).pc ≤ 99 ∧ 5 < 99 ∧ (at' 14 806 806 []).mem.read 14 = some (returnWord (5 + 1)) := by decide
theorem witness_InpStoresTheReducedValue : ({ at' 12 24 806 [] with inputs := [.value 1666] } : State).inputs = [.value 1666] ∧
    (at' 12 24 806 []).held = none ∧ InDomain (at' 12 24 806 []).acc ∧ 24 ≤ 99 := by decide
theorem witness_FailedInputTakesF3 : ({ at' 12 24 806 [] with inputs := [.fail] } : State).inputs = [.fail] ∧
    (at' 12 24 806 []).held = none := by decide
theorem witness_OutHandsOverTheCell : ({ at' 13 524 806 [(24, 666)] with outAnswers := [.ok] } : State).outAnswers = [.ok] ∧
    (at' 13 524 806 [(24, 666)]).mem.read 24 = some 666 ∧ InDomain 806 ∧ 24 ≤ 99 ∧
    (at' 13 524 806 [(24, 666)]).held = none := by decide
theorem witness_FailedOutputTakesF4 : ({ at' 12 524 806 [(24, 666)] with outAnswers := [.fail] } : State).outAnswers = [.fail] ∧
    (at' 12 524 806 [(24, 666)]).mem.read 24 = some 666 ∧ 24 ≤ 99 ∧ (at' 12 524 806 [(24, 666)]).held = none := by decide
theorem witness_UnansweredPortHoldsTheCore : (at' 12 24 806 []).status = .running ∧ (at' 12 24 806 []).inputs = [] ∧
    (at' 12 524 806 [(24, 666)]).mem.read 24 = some 666 ∧ (at' 12 524 806 [(24, 666)]).status = .running ∧
    (at' 12 524 806 [(24, 666)]).outAnswers = [] ∧ 24 ≤ 99 := by decide
theorem witness_DelayedAnswerGivesThePromptResult :
    (at' 12 24 806 []).fetching ∧ (at' 12 24 806 []).pc ≤ 99 ∧ InDomain (at' 12 24 806 []).acc ∧
    (at' 12 24 806 []).mem.read 12 = some (encode (.inp 24)) ∧
    [InAnswer.delay, .delay, .value 7] = List.replicate 2 .delay ++ .value 7 :: [] ∧ InAnswer.value 7 ≠ .delay ∧
    [InAnswer.delay, .fail] = List.replicate 1 .delay ++ .fail :: [] ∧ InAnswer.fail ≠ .delay ∧
    (at' 12 524 806 [(24, 666)]).fetching ∧ (at' 12 524 806 [(24, 666)]).mem.read 12 = some (encode (.out 24)) ∧
    (at' 12 524 806 [(24, 666)]).mem.read 24 = some 666 ∧ 24 ≤ 99 ∧
    [OutAnswer.delay, .ok] = List.replicate 1 .delay ++ .ok :: [] ∧ OutAnswer.ok ≠ .delay ∧
    [OutAnswer.fail] = List.replicate 0 .delay ++ .fail :: [] ∧ OutAnswer.fail ≠ .delay := by decide
theorem witness_StepExecutesTheDecodedInstruction : (at' 99 999 0 []).fetching ∧ (at' 99 999 0 []).pc ≤ 99 ∧
    (at' 99 999 0 []).mem.read 99 = some 999 ∧ decode 999 = .ok (.hrs 99) := ⟨by decide, by decide, by decide, rfl⟩
theorem witness_FetchPastCell99TakesF5 : ({ at' 99 200 0 [] with pc := 100 } : State).fetching ∧
    ({ at' 99 200 0 [] with pc := 100 } : State).pc = 100 := by decide
theorem witness_FetchedIllegalWordTakesF1 : (at' 3 (-1) 0 []).fetching ∧ (at' 3 (-1) 0 []).mem.read 3 = some (-1) ∧
    (at' 3 1000 0 []).mem.read 3 = some 1000 ∧ (at' 3 1000 0 []).pc ≤ 99 ∧ ((-1 : Int) < 0 ∨ 999 < (-1 : Int)) ∧
    ((1000 : Int) < 0 ∨ 999 < (1000 : Int)) := by decide
/-- A state of the invariant, fetching, whose step answers a next state, for each word: an illegal one, one of the seven
that only advance, TAC with either sign, JMP, HRS, and a fetch past cell 99. -/
theorem witness_PcAfterEachStep :
    (∀ w ∈ [(-1 : Int), 150, 350, 850, 999], ∀ acc ∈ [(-1 : Int), 0],
      Inv (ready 99 w acc [(50, 7)]) ∧ (ready 99 w acc [(50, 7)]).fetching ∧
      ends (step (ready 99 w acc [(50, 7)])) (fun _ => true) = true ∧ (ready 99 w acc [(50, 7)]).mem.read 99 = some w) ∧
    Inv { ready 99 200 0 [] with pc := 100 } ∧ ({ ready 99 200 0 [] with pc := 100 } : State).fetching := by
  refine ⟨fun w hw acc ha => ⟨ready_inv (by decide) ?_ ?_, ?_, ?_, ?_⟩, ?_, by decide⟩
  · revert acc; decide
  · revert w; decide
  · exact ⟨rfl, rfl⟩
  · revert w acc; decide
  · revert w acc; decide
  · have h := ready_inv (p := 99) (w := 200) (acc := 0) (cells := []) (by decide) (by decide) (by decide)
    exact ⟨by decide, h.acc_domain, h.mem_wf, h.mem_domain, h.mem_full, rfl, rfl⟩
theorem witness_StoredWordIsFetchedByTheNextStep :
    (∀ acc ∈ [(-7 : Int), 900], (at' 2 603 acc []).fetching ∧ InDomain acc ∧
      (at' 2 603 acc []).mem.read 2 = some (encode (.sto (2 + 1))) ∧ ends (step (at' 2 603 acc [])) (fun _ => true) = true) ∧
    2 < 99 ∧ decode 900 = .ok (.hrs 0) := ⟨by decide, by decide, rfl⟩
theorem witness_StartBeginsARun : ({ State.reset with mem := image [], hostMoves := [.start 99] } : State).status.quiescent = true ∧
    (image []).full = true ∧ (image []).length ≤ 100 ∧ (image []).inDomain = true ∧ 99 ≤ 99 ∧ State.reset.held = none := by
  decide
theorem witness_StartOutOfRangeTakesF2 : State.reset.status.quiescent = true ∧ State.reset.held = none ∧
    ((100 : Int) < 0 ∨ 99 < (100 : Int)) ∧ ((-1 : Int) < 0 ∨ 99 < (-1 : Int)) := by decide
/-- Power-on memory is not full; one that lists a cell 100 has 101 cells; one with 1000 in it has the 100 cells and is not
of D. -/
theorem witness_InvalidImageIsRefused : State.reset.status.quiescent = true ∧ State.reset.mem.full = false ∧
    (image [(100, 0)]).full = true ∧ 100 < (image [(100, 0)]).length ∧
    (image [(5, 1000)]).full = true ∧ (image [(5, 1000)]).length ≤ 100 ∧ (image [(5, 1000)]).inDomain = false ∧
    (0 : Int) ≤ 0 ∧ (99 : Int) ≤ 99 := by decide
theorem witness_RunStartedAtZeroExecutesInp01 :
    ({ State.reset with mem := image [(0, 900)], hostMoves := [.start 0] } : State).status.quiescent = true ∧
    ends (step { State.reset with mem := image [(0, 900)], hostMoves := [.start 0] }) (fun _ => true) = true := by decide
theorem witness_HostWritesOnlyWhileQuiescent : State.reset.status.quiescent = true ∧ 99 ≤ 99 ∧ InDomain (-999) ∧
    (at' 10 150 0 [(50, 1)]).status = .running ∧ ends (step (at' 10 150 0 [(50, 1)])) (fun _ => true) = true := by decide
theorem witness_QuiescentCoreRetainsItsState : (∀ st ∈ [Status.idle, .halted, .faulted .pcOutOfRange 100 none],
    st.quiescent = true) ∧ State.reset.hostMoves = [] := by decide
theorem witness_EveryStepKeepsTheInvariant : Inv (ready 10 250 999 [(50, 999)]) ∧
    ends (step (ready 10 250 999 [(50, 999)])) (fun _ => true) = true :=
  ⟨ready_inv (by decide) (by decide) (by decide), by decide⟩
theorem witness_LegalCoreAlwaysSteps : Inv (ready 10 250 999 []) ∧ (ready 10 250 999 []).status = .running ∧
    Inv { ready 10 250 999 [] with status := .halted, hostMoves := [.start 1] } ∧
    Status.halted.quiescent = true ∧ (ready 10 250 999 []).mem.full = true := by
  have h := ready_inv (p := 10) (w := 250) (acc := 999) (cells := []) (by decide) (by decide) (by decide)
  exact ⟨h, rfl, ⟨h.pc_range, h.acc_domain, h.mem_wf, h.mem_domain, fun _ => h.mem_full rfl, rfl, rfl⟩, rfl, h.mem_full rfl⟩
theorem witness_LaunchedRunNeverStops : Inv { State.reset with mem := image [], hostMoves := [.start 1] } ∧
    State.reset.status.quiescent = true ∧ (image []).full = true :=
  have h := image_legal (cells := []) (by decide)
  ⟨⟨by decide, by decide, h.1, h.2.1, fun _ => h.2.2, rfl, rfl⟩, rfl, h.2.2⟩
/-- A step that starts a run, and one that halts it. -/
theorem witness_OnlyStartRunsAndOnlyHrsHalts :
    ends (step { State.reset with mem := image [], hostMoves := [.start 1] }) (fun t => t.status == .running) = true ∧
    State.reset.status = .idle ∧
    ends (step (at' 6 900 0 [])) (fun t => t.status == .halted) = true ∧ (at' 6 900 0 []).status = .running := by decide
/-- The fetch past cell 99, a negative word, a failing input and a failing output, each from a state of the invariant. -/
theorem witness_EveryFaultOfARunIsPrecise :
    Inv (ready 3 (-1) 0 []) ∧
    ends (step (ready 3 (-1) 0 [])) (fun t => t.status == .faulted .invalidOpcode 3 (some (-1))) = true ∧
    Inv { ready 99 200 0 [] with pc := 100 } ∧
    ends (step { ready 99 200 0 [] with pc := 100 }) (fun t => t.status == .faulted .pcOutOfRange 100 none) = true ∧
    Inv { ready 12 24 0 [] with inputs := [.fail] } ∧
    ends (step { ready 12 24 0 [] with inputs := [.fail] }) (fun t => t.status == .faulted .inputFailure 12 (some 24)) = true ∧
    Inv { ready 12 524 0 [] with outAnswers := [.fail] } ∧
    ends (step { ready 12 524 0 [] with outAnswers := [.fail] })
      (fun t => t.status == .faulted .outputFailure 12 (some 524)) = true := by
  have h1 := ready_inv (p := 3) (w := -1) (acc := 0) (cells := []) (by decide) (by decide) (by decide)
  have h2 := ready_inv (p := 99) (w := 200) (acc := 0) (cells := []) (by decide) (by decide) (by decide)
  have h3 := ready_inv (p := 12) (w := 24) (acc := 0) (cells := []) (by decide) (by decide) (by decide)
  have h4 := ready_inv (p := 12) (w := 524) (acc := 0) (cells := []) (by decide) (by decide) (by decide)
  exact ⟨h1, by decide, ⟨by decide, h2.acc_domain, h2.mem_wf, h2.mem_domain, h2.mem_full, rfl, rfl⟩, by decide,
    ⟨h3.pc_range, h3.acc_domain, h3.mem_wf, h3.mem_domain, h3.mem_full, rfl, rfl⟩, by decide,
    ⟨h4.pc_range, h4.acc_domain, h4.mem_wf, h4.mem_domain, h4.mem_full, rfl, rfl⟩, by decide⟩
/-- STO, INP and JMP change a cell, at the last address too. -/
theorem witness_OnlyTheFourWritersChangeMemory :
    ends (step (at' 10 699 7 [(99, 1)])) (fun t => t.mem.read 99 != (at' 10 699 7 [(99, 1)]).mem.read 99) = true ∧
    ends (step (at' 10 800 7 [(99, 1)])) (fun t => t.mem.read 99 != (at' 10 800 7 [(99, 1)]).mem.read 99) = true ∧
    ends (step { at' 10 50 7 [(50, 1)] with inputs := [.value 2] })
      (fun t => t.mem.read 50 != (at' 10 50 7 [(50, 1)]).mem.read 50) = true := by decide
theorem witness_RegisterInstructionsFrame : ∀ i ∈ [Instr.cla 50, .add 50, .sub 50, .sft 2 1, .tac 50, .hrs 50],
    ends (exec i (at' 10 150 (-5) [(50, 7)])) (fun _ => true) = true ∧ InDomain (at' 10 150 (-5) [(50, 7)]).acc := by decide
theorem witness_StoringInstructionsFrame : ∀ i ∈ [Instr.sto 50, .jmp 50, .inp 50],
    ends (exec i { at' 10 650 (-5) [] with inputs := [.value 3] }) (fun _ => true) = true ∧ InDomain (-5) := by decide
theorem witness_OutFrame : ends (exec (.out 50) { at' 10 550 (-5) [(50, 7)] with outAnswers := [.ok] }) (fun _ => true) = true ∧
    InDomain (-5) := by decide
/-- Two different states that agree on what the statement names. -/
theorem witness_StepDependsOnlyOnStateAndAnswers :
    (at' 10 650 5 []).status = .running ∧ ({ at' 10 650 5 [] with output := [1], inputsUsed := 4 } : State) ≠ at' 10 650 5 [] ∧
    ends (step (at' 10 650 5 [])) (fun _ => true) = true := by decide
theorem witness_SameImageAndAnswersGiveTheSameRun :
    ({ State.reset with mem := image [], hostMoves := [.start 1] } : State).status.quiescent = true ∧
    ({ State.reset with mem := image [], hostMoves := [.start 1], acc := 5, status := .halted, output := [3] } : State).status.quiescent
      = true ∧ (0 : Int) ≤ 1 ∧ (1 : Int) ≤ 99 := by decide

end Sys2Proof.Tests
end

section
/-! PROOFS. The two forms of the reduction that spec/00_scope.md states (R9, R10). -/

namespace Sys2Proof.Machine

/-- R10: the sign of the value, times its magnitude modulo 1000. -/
theorem red_eq_sign_mul_natAbs_mod (v : Int) : red v = v.sign * ((v.natAbs % 1000 : Nat) : Int) := by
  rcases red_cases v with ⟨hv, hred⟩ | ⟨hv, hred⟩
  · rcases hv.eq_or_lt with rfl | hpos
    · rfl
    · rw [hred, Int.sign_eq_one_of_pos hpos]
      omega
  · rw [hred, Int.sign_eq_neg_one_of_neg hv]
    omega

/-- R9, R10: what the truncating division by 1000 leaves over. -/
theorem red_eq_sub_mul_tdiv (v : Int) : red v = v - 1000 * tdiv v 1000 := Int.tmod_def v 1000

/-- Settles O5: both forms hold for every integer, with the laws `inDomain_red` and `red_of_inDomain`; R10's five examples
are evaluated. -/
theorem reductionIsSymmetricRemainder : Obligations.ReductionIsSymmetricRemainder :=
  ⟨fun v => ⟨red_eq_sign_mul_natAbs_mod v, red_eq_sub_mul_tdiv v, inDomain_red v, red_of_inDomain⟩, by decide⟩

end Sys2Proof.Machine
end

section
/-! PROOFS. Decoding and encoding are inverse (spec/30_encoding.md R66), and the fields of a word are its decimal digits
(R62, R63, R67). -/

namespace Sys2Proof

/-! ### The fields of an instruction and of its word -/

theorem Instr.opcode_le (i : Instr) : i.opcode ≤ 9 := by
  cases i <;> simp [Instr.opcode]

theorem Instr.address_le {i : Instr} (h : WellFormed i) : i.address ≤ 99 := by
  cases i
  case sft l r =>
    rw [wellFormed_sft] at h
    simp only [Instr.address]
    omega
  all_goals simpa [Instr.address] using h

theorem encode_toNat (i : Instr) : (encode i).toNat = 100 * i.opcode + i.address := rfl

theorem opcodeField_encode {i : Instr} (h : WellFormed i) : opcodeField (encode i).toNat = i.opcode := by
  have := i.address_le h
  rw [encode_toNat, opcodeField, Config.opcodeScale]
  omega

theorem addressField_encode {i : Instr} (h : WellFormed i) : addressField (encode i).toNat = i.address := by
  have := i.address_le h
  rw [encode_toNat, addressField, Config.opcodeScale]
  omega

theorem encode_range {i : Instr} (h : WellFormed i) : 0 ≤ encode i ∧ encode i ≤ 999 := by
  obtain ⟨hlow, hhigh⟩ := Laws.EncodeInRow.statement_of_address i.address_le h
  have := i.opcode_le
  omega

/-! ### Decoding inverts encoding -/

/-- The opcode field selects the instruction's own row of the decoder; the address field, for SFT its two digits, gives
the operands back. -/
theorem decode_encode {i : Instr} (h : WellFormed i) : decode (encode i) = .ok i := by
  have hrange : ¬(encode i < 0 ∨ Config.wordMax < encode i) := by
    have := encode_range h
    simp only [Config.wordMax]
    omega
  simp only [decode, if_neg hrange, opcodeField_encode h, leftField, rightField, addressField_encode h]
  cases i
  case sft l r =>
    rw [wellFormed_sft] at h
    simp only [Instr.opcode, Instr.address, Except.ok.injEq, Instr.sft.injEq]
    omega
  all_goals rfl

/-- A word decodes to an instruction exactly when the instruction is well formed and the word is its encoding. -/
theorem decode_eq_ok_iff {w : Int} {i : Instr} : decode w = .ok i ↔ WellFormed i ∧ encode i = w := by
  constructor
  · intro h
    obtain ⟨-, -, hwf, henc⟩ := decode_ok h
    exact ⟨hwf, henc⟩
  · rintro ⟨hwf, rfl⟩
    exact decode_encode hwf

/-- R67: no word of 0..999 is rejected. -/
theorem exists_decode_eq_ok {w : Int} (h₀ : 0 ≤ w) (h₁ : w ≤ 999) : ∃ i, decode w = .ok i := by
  cases hd : decode w with
  | ok i => exact ⟨i, rfl⟩
  | error e =>
    obtain ⟨hout, -⟩ := decode_error hd
    omega

/-- Settles O2: one direction is `decode_encode`, the other is totality on 0..999 (`exists_decode_eq_ok`) with
`decode_eq_ok_iff`. -/
theorem decodeAndEncodeAreInverse : Obligations.DecodeAndEncodeAreInverse := by
  refine ⟨fun i h => ⟨decode_encode h, encode_range h⟩, fun w h₀ h₁ => ?_, fun w _ _ => Int.ediv_mul_add_emod w 100⟩
  obtain ⟨i, hd⟩ := exists_decode_eq_ok h₀ h₁
  exact ⟨i, hd, decode_eq_ok_iff.mp hd⟩

/-! ### The fields of a word are its digits -/

/-- R62: the fields of the decoded instruction are `div 100` and `mod 100` of the word. -/
theorem fields_of_decode {n : Nat} {i : Instr} (h : decode (n : Int) = .ok i) :
    i.opcode = n / 100 ∧ i.address = n % 100 := by
  obtain ⟨hwf, henc⟩ := decode_eq_ok_iff.mp h
  have hn : (encode i).toNat = n := by rw [henc, Int.toNat_natCast]
  rw [← opcodeField_encode hwf, ← addressField_encode hwf, hn]
  exact ⟨rfl, rfl⟩

/-- R63: the word `400 + 10 L + R` is SFT with the counts `L` and `R`. -/
theorem decode_sft {l r : Nat} (hl : l ≤ 9) (hr : r ≤ 9) :
    decode ((400 + 10 * l + r : Nat) : Int) = .ok (.sft l r) := by
  have henc : encode (.sft l r) = ((400 + 10 * l + r : Nat) : Int) := by
    simp only [encode, Instr.opcode, Instr.address, Config.opcodeScale]
    omega
  exact decode_eq_ok_iff.mpr ⟨(wellFormed_sft l r).mpr ⟨hl, hr⟩, henc⟩

/-- Settles O3: the fields are those of `fields_of_decode`; a word 400..499 is `400 + 10 L + R` for its own last two
digits, so `decode_sft` decodes it. -/
theorem everyThreeDigitWordDecodesByItsDigits : Obligations.EveryThreeDigitWordDecodesByItsDigits := by
  refine ⟨fun n hn => ?_, fun n hn => ?_, fun l r => decode_sft⟩
  · obtain ⟨i, hd⟩ := exists_decode_eq_ok (w := n) (by omega) (by omega)
    obtain ⟨hop, haddr⟩ := fields_of_decode hd
    obtain ⟨hwf, -⟩ := decode_eq_ok_iff.mp hd
    exact ⟨i, hd, hop, haddr, i.opcode_le, i.address_le hwf⟩
  · have hl : n % 100 / 10 ≤ 9 := by omega
    have hr : n % 100 % 10 ≤ 9 := by omega
    have hdigits : 400 + 10 * (n % 100 / 10) + n % 100 % 10 = n := by omega
    have hd := decode_sft hl hr
    rw [hdigits] at hd
    exact ⟨hd, hl, hr⟩

end Sys2Proof
end

section
/-! PROOFS. CLA, ADD, SUB and STO (spec/42_accumulator.md R110, R111, R112, R114). -/

namespace Sys2Proof

/-- R61: the word `100 × opcode + address` decodes to the instruction it was made from. -/
theorem decode_of_opcode_address {n : Nat} {i : Instr} (h : WellFormed i) (hn : 100 * i.opcode + i.address = n) :
    decode (n : Int) = .ok i := hn ▸ decode_encode h

end Sys2Proof

namespace Sys2Proof.Machine

/-! ### The outcome of each instruction -/

section Outcomes

variable {s : State} {aa : Nat} {m : Int}

theorem exec_cla_of_read (ha : aa ≤ 99) (hr : s.mem.read aa = some m) :
    exec (.cla aa) s = .next (s.advance.setAcc (red m)) :=
  State.loadThen_of_read (s := s.advance) (Nat.lt_succ_of_le ha) hr

theorem exec_add_of_read (ha : aa ≤ 99) (hr : s.mem.read aa = some m) :
    exec (.add aa) s = .next (s.advance.setAcc (red (s.acc + m))) :=
  State.loadThen_of_read (s := s.advance) (Nat.lt_succ_of_le ha) hr

theorem exec_sub_of_read (ha : aa ≤ 99) (hr : s.mem.read aa = some m) :
    exec (.sub aa) s = .next (s.advance.setAcc (red (s.acc - m))) :=
  State.loadThen_of_read (s := s.advance) (Nat.lt_succ_of_le ha) hr

/-- The reduction that ends STO leaves an accumulator of D as it is. -/
theorem exec_sto_of_inDomain (ha : aa ≤ 99) (hacc : InDomain s.acc) :
    exec (.sto aa) s = .next (s.advance.setMem (s.mem.write aa s.acc)) :=
  calc exec (.sto aa) s = (s.advance.setMem (s.mem.write aa s.acc)).finish :=
        State.storeThen_of_lt (s := s.advance) (Nat.lt_succ_of_le ha)
    _ = .next (s.advance.setMem (s.mem.write aa s.acc)) := State.finish_of_inDomain hacc

end Outcomes

/-! ### The obligations -/

/-- Settles O7: CLA leaves the reduced value of the cell, and the reduction leaves a value of D as it is. -/
theorem claLoadsTheCell : Obligations.ClaLoadsTheCell := by
  intro s aa v ha hr hv
  have hexec := exec_cla_of_read ha hr
  rw [red_of_inDomain hv] at hexec
  exact ⟨decode_of_opcode_address ((wellFormed_cla aa).mpr ha) rfl, hexec⟩

/-- Settles O8: the outcome is `exec_add_of_read`; two values of D add up to at most twice 999 in magnitude. -/
theorem addLeavesTheReducedSum : Obligations.AddLeavesTheReducedSum := by
  intro s aa m ha hr
  refine ⟨decode_of_opcode_address ((wellFormed_add aa).mpr ha) rfl, exec_add_of_read ha hr, ?_⟩
  rintro ⟨hacc₀, hacc₁⟩ ⟨hm₀, hm₁⟩
  omega

/-- Settles O9: the outcome is `exec_sub_of_read`; two values of D differ by at most twice 999. -/
theorem subLeavesTheReducedDifference : Obligations.SubLeavesTheReducedDifference := by
  intro s aa m ha hr
  refine ⟨decode_of_opcode_address ((wellFormed_sub aa).mpr ha) rfl, exec_sub_of_read ha hr, ?_⟩
  rintro ⟨hacc₀, hacc₁⟩ ⟨hm₀, hm₁⟩
  omega

/-- Settles O10: the memory is `s.mem.write aa s.acc`, read back by the two read-after-write laws. -/
theorem stoStoresTheAccumulator : Obligations.StoStoresTheAccumulator := by
  intro s aa ha hacc
  exact ⟨decode_of_opcode_address ((wellFormed_sto aa).mpr ha) rfl,
    s.mem.write aa s.acc, exec_sto_of_inDomain ha hacc,
    s.mem.read_write_same aa s.acc, fun b hb => s.mem.read_write_other s.acc hb⟩

end Sys2Proof.Machine
end

section
/-! PROOFS. SFT (spec/43_shift.md R131). -/

namespace Sys2Proof.Machine

/-- The digit shift acts on exact integers; the reduction that ends the step is the only one. -/
theorem exec_sft (l r : Nat) (s : State) :
    exec (.sft l r) s = .next (s.advance.setAcc (red (digitShift l r s.acc))) := rfl

/-- Settles O11: R63 gives the decoded word (`decode_sft`); the outcome is `exec_sft`, whose digit shift is R131's
truncated quotient of the exact product. -/
theorem sftShiftsLeftThenRightThenReduces : Obligations.SftShiftsLeftThenRightThenReduces :=
  fun s l r hl hr => ⟨decode_sft hl hr, exec_sft l r s⟩

end Sys2Proof.Machine
end

section
/-! PROOFS. TAC and JMP (spec/44_control.md R140, R144). -/

namespace Sys2Proof.Machine

/-! ### The outcome of each instruction -/

section Outcomes

variable {s : State} {aa : Nat}

theorem exec_tac_of_neg (hacc : InDomain s.acc) (hneg : s.acc < 0) : exec (.tac aa) s = .next (s.setPc aa) :=
  calc exec (.tac aa) s = (s.setPc aa).finish := if_pos (decide_eq_true hneg)
    _ = .next (s.setPc aa) := State.finish_of_inDomain hacc

theorem exec_tac_of_nonneg (hacc : InDomain s.acc) (hnonneg : 0 ≤ s.acc) :
    exec (.tac aa) s = .next s.advance :=
  calc exec (.tac aa) s = s.advance.finish := if_neg (mt of_decide_eq_true hnonneg.not_gt)
    _ = .next s.advance := State.finish_of_inDomain hacc

/-- R144: the word stored is made from the advanced pc, before the jump overwrites it. -/
theorem exec_jmp_of_inDomain (hacc : InDomain s.acc) :
    exec (.jmp aa) s = .next ((s.setPc aa).setMem (s.mem.write 99 (returnWord (s.pc + 1)))) :=
  calc exec (.jmp aa) s = ((s.setPc aa).setMem (s.mem.write 99 (returnWord (s.pc + 1)))).finish :=
        State.storeThen_of_lt (s := s.advance) (k := fun t => (t.setPc aa).finish)
          (by decide : Config.returnCell < 100)
    _ = .next ((s.setPc aa).setMem (s.mem.write 99 (returnWord (s.pc + 1)))) := State.finish_of_inDomain hacc

end Outcomes

/-- R144: the return word of a JMP at `p` is `801 + p`. -/
theorem returnWord_succ (p : Nat) : returnWord (p + 1) = 801 + (p : Int) := by
  simp only [returnWord, Config.jmpTag]
  omega

/-! ### The obligations -/

/-- Settles O13: the two branches are `exec_tac_of_neg` and `exec_tac_of_nonneg`. -/
theorem tacBranchesOnStrictlyNegative : Obligations.TacBranchesOnStrictlyNegative := by
  intro s aa ha hacc
  exact ⟨decode_of_opcode_address ((wellFormed_tac aa).mpr ha) rfl,
    exec_tac_of_neg hacc, exec_tac_of_nonneg hacc⟩

/-- Settles O14: the memory is `s.mem.write 99 (returnWord (s.pc + 1))`, read back by the two read-after-write laws. -/
theorem jmpRecordsTheReturnWord : Obligations.JmpRecordsTheReturnWord := by
  intro s aa ha hpc hacc
  have hcell : (s.mem.write 99 (returnWord (s.pc + 1))).read 99 = some (801 + (s.pc : Int)) := by
    rw [Memory.read_write_same, returnWord_succ]
  exact ⟨decode_of_opcode_address ((wellFormed_jmp aa).mpr ha) rfl,
    s.mem.write 99 (returnWord (s.pc + 1)), exec_jmp_of_inDomain hacc,
    hcell, by omega, by omega, fun b hb => s.mem.read_write_other _ hb⟩

end Sys2Proof.Machine
end

section
/-! PROOFS. What one instruction and one port transaction can do, said once for all ten instructions
(spec/40_cycle.md R85 to R88; spec/41_io.md R105). -/

namespace Sys2Proof.Machine

/-- The instruction `i`, fetched in `s`, begins the transaction `x` (R102, R104). -/
def Begins (i : Instr) (s : State) : Transaction → Prop
  | .input p aa => i = .inp aa ∧ p = s.pc
  | .output p aa v => i = .out aa ∧ p = s.pc ∧ s.mem.read aa = some v

/-- Everything an instruction can do: change acc and pc alone (CLA, ADD, SUB, SFT, TAC), store a word (STO, JMP), halt
(HRS), or ask its port once pc has been advanced (INP, OUT). -/
theorem exec_next {s t : State} {i : Instr} (h : exec i s = .next t) :
    (∃ n x, (n = s.pc + 1 ∨ n = i.address) ∧ t = (s.setPc n).setAcc (red x)) ∨
    (∃ aa, i = .sto aa ∧ aa < 100 ∧ t = (s.advance.setMem (s.mem.write aa s.acc)).setAcc (red s.acc)) ∨
    (∃ aa, i = .jmp aa ∧ t = ((s.setPc aa).setMem (s.mem.write 99 (returnWord (s.pc + 1)))).setAcc (red s.acc)) ∨
    (∃ aa, i = .hrs aa ∧ t = (s.setPc aa).setStatus .halted) ∨
    (∃ x, Begins i s x ∧ s.advance.resume x = .next t) := by
  cases i with
  | inp aa => exact .inr (.inr (.inr (.inr ⟨.input s.pc aa, ⟨rfl, rfl⟩, h⟩)))
  | cla aa => obtain ⟨-, v, -, rfl⟩ := execCla_next h; exact .inl ⟨_, _, .inl rfl, rfl⟩
  | add aa => obtain ⟨-, v, -, rfl⟩ := execAdd_next h; exact .inl ⟨_, _, .inl rfl, rfl⟩
  | tac aa =>
    rcases execTac_next h with ⟨-, rfl⟩ | ⟨-, rfl⟩
    · exact .inl ⟨_, _, .inr rfl, rfl⟩
    · exact .inl ⟨_, _, .inl rfl, rfl⟩
  | sft l r => obtain rfl := execSft_next h; exact .inl ⟨_, _, .inl rfl, rfl⟩
  | out aa =>
    obtain ⟨-, v, hread, hresume⟩ := execOut_next h
    exact .inr (.inr (.inr (.inr ⟨.output s.pc aa v, ⟨rfl, rfl, hread⟩, hresume⟩)))
  | sto aa => exact .inr (.inl ⟨aa, rfl, execSto_next h⟩)
  | sub aa => obtain ⟨-, v, -, rfl⟩ := execSub_next h; exact .inl ⟨_, _, .inl rfl, rfl⟩
  | jmp aa => exact .inr (.inr (.inl ⟨aa, rfl, execJmp_next h⟩))
  | hrs aa => exact .inr (.inr (.inr (.inl ⟨aa, rfl, execHrs_next h⟩)))

/-- What `Out(v)` can do, from a next state it answered; see `State.answerOutput_next`. -/
theorem State.answerOutput_cases {s t : State} {p aa : Nat} {v : Int} (h : s.answerOutput p aa v = .next t) :
    (s.outAnswers = [] ∧ t = s.setHeld (some (.output p aa v))) ∨
    (∃ rest, s.outAnswers = .delay :: rest ∧ t = (s.setOutAnswers rest).setHeld (some (.output p aa v))) ∨
    (∃ rest, s.outAnswers = .fail :: rest ∧
      t = (s.setOutAnswers rest).raise .outputFailure p (some (encode (.out aa)))) ∨
    (∃ rest, s.outAnswers = .ok :: rest ∧
      t = ((((s.setOutAnswers rest).setOutput (s.output ++ [v])).setHeld none).setAcc (red s.acc))) := by
  obtain ⟨u, hu, hcases⟩ := s.answerOutput_next p aa v
  rw [h] at hu
  cases hu
  exact hcases

end Sys2Proof.Machine
end

section
/-! PROOFS. The invariant (spec/10_state.md sections 2 to 5): what keeps it, one lemma per operation, and that it is kept
by every step. -/

namespace Sys2Proof.Machine

variable {s t : State}

/-! ### The operations that keep the invariant -/

theorem Inv.setAcc_red (h : Inv s) (x : Int) : Inv (s.setAcc (red x)) :=
  ⟨h.pc_range, inDomain_red x, h.mem_wf, h.mem_domain, h.mem_full, h.held_legal, h.record_legal⟩

theorem Inv.setInputs (h : Inv s) (l : List InAnswer) : Inv (s.setInputs l) :=
  ⟨h.pc_range, h.acc_domain, h.mem_wf, h.mem_domain, h.mem_full, h.held_legal, h.record_legal⟩

theorem Inv.setInputsUsed (h : Inv s) (n : Nat) : Inv (s.setInputsUsed n) :=
  ⟨h.pc_range, h.acc_domain, h.mem_wf, h.mem_domain, h.mem_full, h.held_legal, h.record_legal⟩

theorem Inv.setOutAnswers (h : Inv s) (l : List OutAnswer) : Inv (s.setOutAnswers l) :=
  ⟨h.pc_range, h.acc_domain, h.mem_wf, h.mem_domain, h.mem_full, h.held_legal, h.record_legal⟩

theorem Inv.setOutput (h : Inv s) (l : List Int) : Inv (s.setOutput l) :=
  ⟨h.pc_range, h.acc_domain, h.mem_wf, h.mem_domain, h.mem_full, h.held_legal, h.record_legal⟩

theorem Inv.setHostMoves (h : Inv s) (l : List HostMove) : Inv (s.setHostMoves l) :=
  ⟨h.pc_range, h.acc_domain, h.mem_wf, h.mem_domain, h.mem_full, h.held_legal, h.record_legal⟩

theorem Inv.setHeld {x : Option Transaction} (h : Inv s) (hx : (s.setHeld x).heldLegal = true) : Inv (s.setHeld x) :=
  ⟨h.pc_range, h.acc_domain, h.mem_wf, h.mem_domain, h.mem_full, hx, h.record_legal⟩

theorem State.heldLegal_of_held_none (h : s.held = none) : s.heldLegal = true := by
  simp [State.heldLegal, h]

theorem Inv.setHeld_none (h : Inv s) : Inv (s.setHeld none) :=
  h.setHeld (State.heldLegal_of_held_none rfl)

theorem Inv.setPc (h : Inv s) (hheld : s.held = none) {n : Nat} (hn : n ≤ 100) : Inv (s.setPc n) :=
  ⟨hn, h.acc_domain, h.mem_wf, h.mem_domain, h.mem_full, State.heldLegal_of_held_none hheld, h.record_legal⟩

/-- The cell of the instruction in progress may be overwritten only once its transaction is over. -/
theorem Inv.write (h : Inv s) (hheld : s.held = none) {a : Nat} (ha : a < 100) {v : Int} (hv : InDomain v) :
    Inv (s.setMem (s.mem.write a v)) :=
  ⟨h.pc_range, h.acc_domain, Memory.write_wf h.mem_wf v ha, Memory.write_inDomain h.mem_domain a hv,
    fun hs => Memory.write_full (h.mem_full hs) a v, State.heldLegal_of_held_none hheld, h.record_legal⟩

theorem Inv.halt (h : Inv s) (hheld : s.held = none) : Inv (s.setStatus .halted) :=
  ⟨h.pc_range, h.acc_domain, h.mem_wf, h.mem_domain, nofun, State.heldLegal_of_held_none hheld, rfl⟩

theorem Inv.raise {code : FaultCode} {fpc : Int} {fword : Option Int} (h : Inv s)
    (hrecord : (Status.faulted code fpc fword).recordLegal = true) : Inv (s.raise code fpc fword) :=
  ⟨h.pc_range, h.acc_domain, h.mem_wf, h.mem_domain, nofun, State.heldLegal_of_held_none rfl, hrecord⟩

theorem Inv.startRun (h : Inv s) (hfull : s.mem.full = true) {n : Nat} (hn : n ≤ 99) : Inv (s.startRun n) :=
  ⟨Nat.le_succ_of_le hn, (by decide : InDomain 0), Memory.write_wf h.mem_wf 1 (by decide),
    Memory.write_inDomain h.mem_domain 0 (by decide), fun _ => Memory.write_full hfull 0 1,
    State.heldLegal_of_held_none rfl, rfl⟩

/-! ### The transaction in progress -/

/-- The legal transaction of an INP, as propositions. -/
theorem State.heldLegal_input_iff {p aa : Nat} (hheld : s.held = some (.input p aa)) :
    s.heldLegal = true ↔ s.status = .running ∧ p ≤ 99 ∧ aa ≤ 99 ∧ s.pc = p + 1 ∧
      s.mem.read p = some (encode (.inp aa)) := by
  simp [State.heldLegal, hheld, and_assoc]

/-- The legal transaction of an OUT, as propositions. -/
theorem State.heldLegal_output_iff {p aa : Nat} {v : Int} (hheld : s.held = some (.output p aa v)) :
    s.heldLegal = true ↔ s.status = .running ∧ p ≤ 99 ∧ aa ≤ 99 ∧ s.pc = p + 1 ∧
      s.mem.read p = some (encode (.out aa)) ∧ s.mem.read aa = some v := by
  simp [State.heldLegal, hheld, and_assoc]

/-- A quiescent core of the invariant is in no transaction. -/
theorem Inv.held_eq_none (h : Inv s) (hs : s.status ≠ .running) : s.held = none := by
  cases hheld : s.held with
  | none => rfl
  | some x =>
    have hlegal := h.held_legal
    cases x with
    | input p aa => exact absurd ((State.heldLegal_input_iff hheld).mp hlegal).1 hs
    | output p aa v => exact absurd ((State.heldLegal_output_iff hheld).mp hlegal).1 hs

theorem encode_inp (aa : Nat) : encode (.inp aa) = (aa : Int) := by
  simp [encode, Instr.opcode, Instr.address]

theorem encode_out (aa : Nat) : encode (.out aa) = 500 + (aa : Int) := by
  simp [encode, Instr.opcode, Instr.address]

theorem recordLegal_inputFailure {p aa : Nat} (hp : p ≤ 99) (haa : aa ≤ 99) :
    (Status.faulted .inputFailure p (some (encode (.inp aa)))).recordLegal = true := by
  simp only [Status.recordLegal, encode_inp, Bool.and_eq_true, decide_eq_true_eq]
  omega

theorem recordLegal_outputFailure {p aa : Nat} (hp : p ≤ 99) (haa : aa ≤ 99) :
    (Status.faulted .outputFailure p (some (encode (.out aa)))).recordLegal = true := by
  simp only [Status.recordLegal, encode_out, Bool.and_eq_true, decide_eq_true_eq]
  omega

theorem Inv.answerInput {p aa : Nat} (h : Inv s) (hx : (s.setHeld (some (.input p aa))).heldLegal = true)
    (ht : s.answerInput p aa = .next t) : Inv t := by
  obtain ⟨-, hp, haa, -, -⟩ := (State.heldLegal_input_iff rfl).mp hx
  rcases State.answerInput_next ht with ⟨-, rfl⟩ | ⟨rest, -, rfl⟩ | ⟨rest, -, rfl⟩ | ⟨v, rest, -, ha, rfl⟩
  · exact h.setHeld hx
  · exact (h.setInputs rest).setHeld hx
  · exact (h.setInputs rest).raise (recordLegal_inputFailure hp haa)
  · exact ((((h.setInputs rest).setInputsUsed _).setHeld_none).write rfl ha (inDomain_red v)).setAcc_red _

theorem Inv.answerOutput {p aa : Nat} {v : Int} (h : Inv s)
    (hx : (s.setHeld (some (.output p aa v))).heldLegal = true) (ht : s.answerOutput p aa v = .next t) : Inv t := by
  obtain ⟨-, hp, haa, -, -, -⟩ := (State.heldLegal_output_iff rfl).mp hx
  rcases State.answerOutput_cases ht with ⟨-, rfl⟩ | ⟨rest, -, rfl⟩ | ⟨rest, -, rfl⟩ | ⟨rest, -, rfl⟩
  · exact h.setHeld hx
  · exact (h.setOutAnswers rest).setHeld hx
  · exact (h.setOutAnswers rest).raise (recordLegal_outputFailure hp haa)
  · exact (((h.setOutAnswers rest).setOutput _).setHeld_none).setAcc_red _

theorem Inv.resume {x : Transaction} (h : Inv s) (hx : (s.setHeld (some x)).heldLegal = true)
    (ht : s.resume x = .next t) : Inv t := by
  cases x with
  | input p aa => exact h.answerInput hx ht
  | output p aa v => exact h.answerOutput hx ht

/-- The transaction an instruction begins is legal once pc has been advanced past it. -/
theorem heldLegal_of_begins {i : Instr} {x : Transaction} (hs : s.status = .running) (hp : s.pc < 100)
    (hread : s.mem.read s.pc = some (encode i)) (hwf : WellFormed i) (hx : Begins i s x) :
    (s.advance.setHeld (some x)).heldLegal = true := by
  cases x with
  | input p aa =>
    obtain ⟨rfl, rfl⟩ := hx
    exact (State.heldLegal_input_iff rfl).mpr ⟨hs, Nat.le_of_lt_succ hp, (wellFormed_inp aa).mp hwf, rfl, hread⟩
  | output p aa v =>
    obtain ⟨rfl, rfl, hv⟩ := hx
    exact (State.heldLegal_output_iff rfl).mpr
      ⟨hs, Nat.le_of_lt_succ hp, (wellFormed_out aa).mp hwf, rfl, hread, hv⟩

/-! ### Every step keeps the invariant -/

theorem inDomain_returnWord {n : Nat} (hn : n ≤ 100) : InDomain (returnWord n) := by
  simp only [InDomain, returnWord, Config.jmpTag]
  omega

theorem Inv.exec {i : Instr} (h : Inv s) (hs : s.status = .running) (hheld : s.held = none) (hp : s.pc < 100)
    (hread : s.mem.read s.pc = some (encode i)) (hwf : WellFormed i) (ht : exec i s = .next t) : Inv t := by
  have haddr : i.address ≤ 99 := i.address_le hwf
  have hadv : Inv s.advance := h.setPc hheld hp
  rcases exec_next ht with ⟨n, x, hn, rfl⟩ | ⟨aa, -, haa, rfl⟩ | ⟨aa, rfl, rfl⟩ | ⟨aa, rfl, rfl⟩ | ⟨x, hx, hresume⟩
  · exact (h.setPc hheld (by omega)).setAcc_red x
  · exact (hadv.write hheld haa h.acc_domain).setAcc_red _
  · exact ((h.setPc hheld (Nat.le_succ_of_le haddr)).write hheld (by decide) (inDomain_returnWord hp)).setAcc_red _
  · exact (h.setPc hheld (Nat.le_succ_of_le haddr)).halt hheld
  · exact hadv.resume (heldLegal_of_begins hs hp hread hwf hx) hresume

theorem Inv.hostTurn (h : Inv s) (hs : s.status ≠ .running) (ht : s.hostTurn = .next t) : Inv t := by
  rcases State.hostTurn_next ht with ⟨-, rfl⟩ | ⟨a, v, rest, -, ha, hv, rfl⟩ | ⟨entry, rest, -, hentry, rfl⟩ |
    ⟨entry, rest, -, -, hentry, hfull, -, -, rfl⟩
  · exact h
  · exact (h.setHostMoves rest).write (h.held_eq_none hs) ha hv
  · exact (h.setHostMoves rest).raise (decide_eq_true hentry)
  · exact (h.setHostMoves rest).startRun hfull (by omega)

theorem recordLegal_invalidOpcode {p : Nat} {w : Int} (hp : p ≤ 99) (hw : w < 0 ∨ 999 < w) :
    (Status.faulted .invalidOpcode p (some w)).recordLegal = true := by
  simp only [Status.recordLegal, Bool.and_eq_true, decide_eq_true_eq]
  omega

/-- Settles O36: each outcome of a step (`step_next`) is built from operations that keep the invariant; the transaction an
INP or OUT is left in is the one it began (`heldLegal_of_begins`). -/
theorem everyStepKeepsTheInvariant : Obligations.EveryStepKeepsTheInvariant := by
  intro s t h ht
  rcases step_next ht with ⟨hs, hturn⟩ | ⟨-, x, hheld, hresume⟩ | ⟨-, -, hp, rfl⟩ | ⟨-, -, hp, w, e, -, hd, rfl⟩ |
    ⟨hs, hheld, hp, w, i, hread, hd, hexec⟩
  · exact h.hostTurn hs hturn
  · have hx : (s.setHeld (some x)).heldLegal = true := by
      rw [← hheld]
      exact h.held_legal
    exact h.resume hx hresume
  · have hpc : s.pc = 100 := le_antisymm h.pc_range hp
    exact h.raise (by rw [hpc]; rfl)
  · obtain ⟨hw, -⟩ := decode_error hd
    exact h.raise (recordLegal_invalidOpcode (Nat.le_of_lt_succ hp) hw)
  · obtain ⟨-, -, hwf, rfl⟩ := decode_ok hd
    exact h.exec hs hheld hp hread hwf hexec

end Sys2Proof.Machine
end

section
/-! PROOFS. What a step answers in each situation (spec/40_cycle.md section 2; spec/70_reset_and_hazards.md): the rules the
statements about the cycle and about the host are read off from. -/

namespace Sys2Proof.Machine

variable {s : State}

/-! ### The cycle -/

/-- Taking a fault outside a transaction changes the status alone. -/
theorem State.raise_of_held_none (hheld : s.held = none) (code : FaultCode) (fpc : Int) (fword : Option Int) :
    s.raise code fpc fword = { s with status := .faulted code fpc fword } := by
  simp [State.raise, State.setStatus, State.setHeld, hheld]

/-- Past cell 99 nothing is fetched and F5 is taken. -/
theorem step_of_past_end (hs : s.fetching) (hp : 100 ≤ s.pc) : step s = .next (s.raise .pcOutOfRange s.pc none) := by
  obtain ⟨hrun, hheld⟩ := hs
  simp [step_of_fetching hrun hheld, State.fetchDecode, hp.not_gt]

theorem decode_eq_error {w : Int} (hw : w < 0 ∨ 999 < w) : decode w = .error (.invalidOpcode w) := if_pos hw

/-- A word that is no instruction takes F1 before the advance. -/
theorem step_of_illegal {w : Int} (hs : s.fetching) (hp : s.pc ≤ 99) (hread : s.mem.read s.pc = some w)
    (hw : w < 0 ∨ 999 < w) : step s = .next (s.raise .invalidOpcode s.pc (some w)) := by
  obtain ⟨hrun, hheld⟩ := hs
  simp [step_of_fetching hrun hheld, State.fetchDecode, Nat.lt_succ_of_le hp, hread, decode_eq_error hw]

/-- The cell that holds the word of a well-formed instruction is executed as that instruction. -/
theorem step_of_encode {i : Instr} (hs : s.fetching) (hp : s.pc ≤ 99) (hread : s.mem.read s.pc = some (encode i))
    (hwf : WellFormed i) : step s = exec i s :=
  step_of_decode hs.1 hs.2 (Nat.lt_succ_of_le hp) hread (decode_encode hwf)

/-! ### The host's turn -/

theorem Status.quiescent_iff {st : Status} : st.quiescent = true ↔ st ≠ .running := by
  cases st <;> simp [Status.quiescent]

theorem step_of_quiescent (hq : s.status.quiescent = true) : step s = s.hostTurn :=
  step_of_not_running (Status.quiescent_iff.mp hq)

theorem State.hostTurn_nil (hmoves : s.hostMoves = []) : s.hostTurn = .next s := by
  simp only [State.hostTurn, hmoves]

theorem State.hostTurn_write {a : Nat} {v : Int} {rest : List HostMove} (hmoves : s.hostMoves = .write a v :: rest)
    (ha : a ≤ 99) (hv : InDomain v) : s.hostTurn = .next ((s.setHostMoves rest).setMem (s.mem.write a v)) := by
  simp only [State.hostTurn, hmoves, State.hostWrite, Config.memCells, if_pos (Nat.lt_succ_of_le ha), if_pos hv,
    State.setHostMoves_mem]

theorem State.hostTurn_start {entry : Int} {rest : List HostMove} (hmoves : s.hostMoves = .start entry :: rest) :
    s.hostTurn = (s.setHostMoves rest).start entry := by
  simp only [State.hostTurn, hmoves]

theorem State.start_of_out_of_range {entry : Int} (hentry : entry < 0 ∨ 99 < entry) :
    s.start entry = .next (s.raise .startPcOutOfRange entry none) := if_pos hentry

/-- R196, R197: a valid entry and a valid image begin a run. -/
theorem State.start_of_valid {entry : Int} (h₀ : 0 ≤ entry) (h₁ : entry ≤ 99) (hfull : s.mem.full = true)
    (hlen : s.mem.length ≤ 100) (hdom : s.mem.inDomain = true) : s.start entry = .next (s.startRun entry.toNat) := by
  have hentry : ¬(entry < 0 ∨ 99 < entry) := by omega
  simp [State.start, hentry, hfull, hdom, hlen.not_gt]

end Sys2Proof.Machine
end

section
/-! PROOFS. The statements about the cycle and about what the host does (spec/40_cycle.md section 2;
spec/60_exceptions.md section 1; spec/70_reset_and_hazards.md). -/

namespace Sys2Proof.Machine

/-! ### Fetch, decode and dispatch -/

/-- Settles O24: `step_of_decode` with the decoder's own inverse; the opcode is the field of the word. -/
theorem stepExecutesTheDecodedInstruction : Obligations.StepExecutesTheDecodedInstruction := by
  intro s w i hs hp hread hd
  obtain ⟨hw, -, hwf, henc⟩ := decode_ok hd
  obtain ⟨n, rfl⟩ := Int.eq_ofNat_of_zero_le hw
  obtain ⟨hop, -⟩ := fields_of_decode hd
  exact ⟨step_of_decode hs.1 hs.2 (Nat.lt_succ_of_le hp) hread hd, hwf, henc, by omega⟩

/-- Settles O25: `step_of_past_end`, outside a transaction. -/
theorem fetchPastCell99TakesF5 : Obligations.FetchPastCell99TakesF5 := by
  intro s hs hp
  rw [step_of_past_end hs hp.ge, State.raise_of_held_none hs.2, hp]
  rfl

/-- Settles O26: `step_of_illegal`, outside a transaction. -/
theorem fetchedIllegalWordTakesF1 : Obligations.FetchedIllegalWordTakesF1 := by
  intro s w hs hp hread hw
  rw [step_of_illegal hs hp hread hw, State.raise_of_held_none hs.2]

/-- Settles O15: the halted core leaves its step to a host that has no move. -/
theorem hrsHaltsTheRun : Obligations.HrsHaltsTheRun := by
  intro s aa haa
  refine ⟨decode_of_opcode_address ((wellFormed_hrs aa).mpr haa) rfl, rfl, fun hmoves => ?_⟩
  exact (step_of_quiescent rfl).trans (State.hostTurn_nil hmoves)

/-- Settles O28: STO writes the very cell that pc then names, so the next fetch reads acc: a legal word is executed
(`step_of_decode`), a negative one takes F1 (`fetchedIllegalWordTakesF1`). -/
theorem storedWordIsFetchedByTheNextStep : Obligations.StoredWordIsFetchedByTheNextStep := by
  intro s t hs hacc hp hread ht
  have hcell : s.pc + 1 ≤ 99 := hp
  rw [step_of_encode hs hp.le hread ((wellFormed_sto _).mpr hcell), exec_sto_of_inDomain hcell hacc] at ht
  cases ht
  have hnext : (s.mem.write (s.pc + 1) s.acc).read (s.pc + 1) = some s.acc := Memory.read_write_same _ _ _
  exact ⟨fun i hd => step_of_decode hs.1 hs.2 (Nat.lt_succ_of_le hcell) hnext hd,
    fun hneg => fetchedIllegalWordTakesF1 _ _ hs hcell hnext (.inl hneg)⟩

/-! ### START and the host's writes -/

/-- Settles O29: the memory is `s.mem.write 0 1`, read back by the two read-after-write laws. -/
theorem startBeginsARun : Obligations.StartBeginsARun := by
  intro s entry rest hq hheld hmoves hentry hfull hlen hdom
  refine ⟨s.mem.write 0 1, ?_, s.mem.read_write_same 0 1, fun b hb => s.mem.read_write_other 1 hb⟩
  rw [step_of_quiescent hq, State.hostTurn_start hmoves,
    State.start_of_valid (s := s.setHostMoves rest) (Int.natCast_nonneg entry) (by omega) hfull hlen hdom]
  simp [State.startRun, State.setHostMoves, State.setMem, State.setAcc, State.setPc, State.setStatus, State.setHeld,
    State.setOutput, State.setInputsUsed, hheld]

/-- Settles O30: the entry is checked before the memory (`State.start_of_out_of_range`). -/
theorem startOutOfRangeTakesF2 : Obligations.StartOutOfRangeTakesF2 := by
  intro s entry rest hq hheld hmoves hentry
  rw [step_of_quiescent hq, State.hostTurn_start hmoves, State.start_of_out_of_range hentry,
    State.raise_of_held_none (s := s.setHostMoves rest) hheld]
  rfl

/-- Settles O31: the three checks of START in their order. -/
theorem invalidImageIsRefused : Obligations.InvalidImageIsRefused := by
  intro s entry rest hq hmoves h₀ h₁
  have hentry : ¬(entry < 0 ∨ 99 < entry) := by omega
  rw [step_of_quiescent hq, State.hostTurn_start hmoves]
  refine ⟨fun hfull => ?_, fun hfull hlen => ?_, fun hfull hlen hdom => ?_⟩
  · simp [State.start, hentry, hfull]
  · simp [State.start, hentry, hfull, hlen]
  · simp [State.start, hentry, hfull, hlen.not_gt, hdom]

/-- Settles O32: a START(0) that leaves no refusal begins a run whose pc is the marker cell, and the marker is the word of
INP 01. -/
theorem runStartedAtZeroExecutesInp01 : Obligations.RunStartedAtZeroExecutesInp01 := by
  intro s t rest hq hmoves ht
  rw [step_of_quiescent hq] at ht
  rcases State.hostTurn_next ht with ⟨h, -⟩ | ⟨a, v, rest', h, -⟩ | ⟨entry, rest', h, hentry, -⟩ |
    ⟨entry, rest', h, -, -, -, -, -, rfl⟩ <;> rw [hmoves] at h <;> cases h
  · omega
  · exact step_of_encode (i := .inp 1) ⟨rfl, rfl⟩ (Nat.zero_le 99) (s.mem.read_write_same 0 1) rfl

/-- No transaction takes a host move. -/
theorem State.resume_hostMoves {s t : State} {x : Transaction} (h : s.resume x = .next t) :
    t.hostMoves = s.hostMoves := by
  cases x with
  | input p aa =>
    rcases State.answerInput_next h with ⟨-, rfl⟩ | ⟨_, -, rfl⟩ | ⟨_, -, rfl⟩ | ⟨_, _, -, -, rfl⟩ <;> rfl
  | output p aa v =>
    rcases State.answerOutput_cases h with ⟨-, rfl⟩ | ⟨_, -, rfl⟩ | ⟨_, -, rfl⟩ | ⟨_, -, rfl⟩ <;> rfl

theorem exec_hostMoves {s t : State} {i : Instr} (h : exec i s = .next t) : t.hostMoves = s.hostMoves := by
  rcases exec_next h with ⟨_, _, -, rfl⟩ | ⟨_, -, -, rfl⟩ | ⟨_, -, rfl⟩ | ⟨_, -, rfl⟩ | ⟨x, -, hresume⟩
  · rfl
  · rfl
  · rfl
  · rfl
  · exact State.resume_hostMoves (s := s.advance) hresume

theorem step_hostMoves_of_running {s t : State} (hs : s.status = .running) (h : step s = .next t) :
    t.hostMoves = s.hostMoves := by
  rcases step_next h with ⟨hnot, -⟩ | ⟨-, x, -, hresume⟩ | ⟨-, -, -, rfl⟩ | ⟨-, -, -, _, _, -, -, rfl⟩ |
    ⟨-, -, -, w, i, -, -, hexec⟩
  · exact absurd hs hnot
  · exact State.resume_hostMoves hresume
  · rfl
  · rfl
  · exact exec_hostMoves hexec

/-- Settles O33: `State.hostTurn_write` on a quiescent core, `step_hostMoves_of_running` on a Running one. -/
theorem hostWritesOnlyWhileQuiescent : Obligations.HostWritesOnlyWhileQuiescent := by
  refine ⟨fun s a v rest hq hmoves ha hv => ?_, fun s t => step_hostMoves_of_running⟩
  refine ⟨s.mem.write a v, ?_, s.mem.read_write_same a v, fun b hb => s.mem.read_write_other v hb⟩
  rw [step_of_quiescent hq, State.hostTurn_write hmoves ha hv]
  rfl

/-- Settles O34, by induction on the number of steps: each answers the state it was given. -/
theorem quiescentCoreRetainsItsState : Obligations.QuiescentCoreRetainsItsState := by
  intro k s hq hmoves
  have hstep : step s = .next s := by rw [step_of_quiescent hq, State.hostTurn_nil hmoves]
  induction k with
  | zero => rfl
  | succ k ih => rw [core_run_of_step hstep, ih]

end Sys2Proof.Machine
end

section
/-! PROOFS. INP and OUT (spec/41_io.md; spec/60_exceptions.md sections 1 and 4). -/

namespace Sys2Proof.Machine

variable {s : State} {p aa : Nat} {v : Int}

/-! ### A transaction, by what its port answers -/

theorem State.answerInput_nil (hin : s.inputs = []) :
    s.answerInput p aa = .next (s.setHeld (some (.input p aa))) := by
  simp only [State.answerInput, hin]

theorem State.answerInput_delay {rest : List InAnswer} (hin : s.inputs = .delay :: rest) :
    s.answerInput p aa = .next ((s.setInputs rest).setHeld (some (.input p aa))) := by
  simp only [State.answerInput, hin]

theorem State.answerInput_fail {rest : List InAnswer} (hin : s.inputs = .fail :: rest) :
    s.answerInput p aa = .next ((s.setInputs rest).raise .inputFailure p (some (encode (.inp aa)))) := by
  simp only [State.answerInput, hin]

theorem State.answerInput_value {rest : List InAnswer} (hin : s.inputs = .value v :: rest) :
    s.answerInput p aa =
      (((s.setInputs rest).setInputsUsed (s.inputsUsed + 1)).setHeld none).storeOperand aa (red v) := by
  simp only [State.answerInput, hin]

theorem State.answerOutput_nil (hout : s.outAnswers = []) :
    s.answerOutput p aa v = .next (s.setHeld (some (.output p aa v))) := by
  simp only [State.answerOutput, hout]

theorem State.answerOutput_delay {rest : List OutAnswer} (hout : s.outAnswers = .delay :: rest) :
    s.answerOutput p aa v = .next ((s.setOutAnswers rest).setHeld (some (.output p aa v))) := by
  simp only [State.answerOutput, hout]

theorem State.answerOutput_fail {rest : List OutAnswer} (hout : s.outAnswers = .fail :: rest) :
    s.answerOutput p aa v = .next ((s.setOutAnswers rest).raise .outputFailure p (some (encode (.out aa)))) := by
  simp only [State.answerOutput, hout]

theorem State.answerOutput_ok {rest : List OutAnswer} (hout : s.outAnswers = .ok :: rest) :
    s.answerOutput p aa v = (((s.setOutAnswers rest).setOutput (s.output ++ [v])).setHeld none).finish := by
  simp only [State.answerOutput, hout]

/-- OUT offers the cell's value to the sink once pc has been advanced. -/
theorem exec_out_of_read (haa : aa ≤ 99) (hread : s.mem.read aa = some v) :
    exec (.out aa) s = s.advance.answerOutput s.pc aa v :=
  State.loadThen_of_read (s := s.advance) (Nat.lt_succ_of_le haa) hread

/-- A store in a state whose accumulator is in D writes the cell and nothing else. -/
theorem State.storeOperand_of_inDomain (haa : aa ≤ 99) (hacc : InDomain s.acc) :
    s.storeOperand aa v = .next (s.setMem (s.mem.write aa v)) :=
  (State.storeThen_of_lt (Nat.lt_succ_of_le haa)).trans (State.finish_of_inDomain hacc)

/-! ### A prompt answer, and none -/

/-- Settles O18: the memory is `s.mem.write aa (red v)`, read back by the two read-after-write laws. -/
theorem inpStoresTheReducedValue : Obligations.InpStoresTheReducedValue := by
  intro s aa v rest haa hacc hheld hin
  refine ⟨decode_of_opcode_address ((wellFormed_inp aa).mpr haa) (Nat.zero_add aa), s.mem.write aa (red v), ?_,
    s.mem.read_write_same aa _, fun b hb => s.mem.read_write_other _ hb⟩
  calc exec (.inp aa) s
      = (((s.advance.setInputs rest).setInputsUsed (s.inputsUsed + 1)).setHeld none).storeOperand aa (red v) :=
        State.answerInput_value (s := s.advance) hin
    _ = _ := State.storeOperand_of_inDomain haa hacc
    _ = _ := by rw [← hheld]; rfl

/-- Settles O19: `State.answerInput_fail` after the advance. -/
theorem failedInputTakesF3 : Obligations.FailedInputTakesF3 := by
  intro s aa rest hheld hin
  calc exec (.inp aa) s
      = .next ((s.advance.setInputs rest).raise .inputFailure s.pc (some (encode (.inp aa)))) :=
        State.answerInput_fail (s := s.advance) hin
    _ = _ := by rw [State.raise_of_held_none (s := s.advance.setInputs rest) hheld, encode_inp]; rfl

/-- Settles O20: `State.answerOutput_ok` after the advance. -/
theorem outHandsOverTheCell : Obligations.OutHandsOverTheCell := by
  intro s aa v rest haa hacc hheld hread hout
  refine ⟨decode_of_opcode_address ((wellFormed_out aa).mpr haa) rfl, ?_⟩
  calc exec (.out aa) s
      = (((s.advance.setOutAnswers rest).setOutput (s.output ++ [v])).setHeld none).finish :=
        (exec_out_of_read haa hread).trans (State.answerOutput_ok (s := s.advance) hout)
    _ = _ := State.finish_of_inDomain hacc
    _ = _ := by rw [← hheld]; rfl

/-- Settles O21: `State.answerOutput_fail` after the advance. -/
theorem failedOutputTakesF4 : Obligations.FailedOutputTakesF4 := by
  intro s aa v rest haa hheld hread hout
  calc exec (.out aa) s
      = .next ((s.advance.setOutAnswers rest).raise .outputFailure s.pc (some (encode (.out aa)))) :=
        (exec_out_of_read haa hread).trans (State.answerOutput_fail (s := s.advance) hout)
    _ = _ := by rw [State.raise_of_held_none (s := s.advance.setOutAnswers rest) hheld, encode_out]; rfl

/-- Settles O22: the held core asks its port again (`step_of_held`) and is again left without an answer. -/
theorem unansweredPortHoldsTheCore : Obligations.UnansweredPortHoldsTheCore := by
  refine ⟨fun s aa hs hin => ⟨State.answerInput_nil (s := s.advance) hin, ?_⟩,
    fun s aa v haa hread hs hout =>
      ⟨(exec_out_of_read haa hread).trans (State.answerOutput_nil (s := s.advance) hout), ?_⟩⟩
  · exact (step_of_held (s := { s with pc := s.pc + 1, held := some (.input s.pc aa) }) hs rfl).trans
      (State.answerInput_nil hin)
  · exact (step_of_held (s := { s with pc := s.pc + 1, held := some (.output s.pc aa v) }) hs rfl).trans
      (State.answerOutput_nil hout)

/-! ### A delayed answer -/

theorem core_run_one (s : State) : Sys2Proof.core.run 1 s = step s := by
  rw [core_run_succ]
  cases step s <;> rfl

/-- A descending chain of states is run down to the step of its last one. -/
theorem core_run_chain {d : Nat → State} (hd : ∀ n, step (d (n + 1)) = .next (d n)) (n : Nat) :
    Sys2Proof.core.run (n + 1) (d n) = step (d 0) := by
  induction n with
  | zero => exact core_run_one (d 0)
  | succ n ih => rw [core_run_of_step (hd n), ih]

/-- The core held in the transaction of an INP that `n` delays and then `l` will answer. -/
def State.waitingInput (s : State) (p aa : Nat) (l : List InAnswer) (n : Nat) : State :=
  (s.setInputs (List.replicate n .delay ++ l)).setHeld (some (.input p aa))

/-- The core held in the transaction of an OUT that `n` delays and then `l` will answer. -/
def State.waitingOutput (s : State) (p aa : Nat) (v : Int) (l : List OutAnswer) (n : Nat) : State :=
  (s.setOutAnswers (List.replicate n .delay ++ l)).setHeld (some (.output p aa v))

theorem step_waitingInput (hs : s.status = .running) (l : List InAnswer) (n : Nat) :
    step (s.waitingInput p aa l n) = (s.waitingInput p aa l n).answerInput p aa :=
  step_of_held (s := s.waitingInput p aa l n) hs rfl

theorem step_waitingOutput (hs : s.status = .running) (l : List OutAnswer) (n : Nat) :
    step (s.waitingOutput p aa v l n) = (s.waitingOutput p aa v l n).answerOutput p aa v :=
  step_of_held (s := s.waitingOutput p aa v l n) hs rfl

/-- A transaction that completes ends alike from the advance and from a wait. -/
theorem State.answerInput_waitingInput {ans : InAnswer} (hans : ans ≠ .delay) (rest : List InAnswer) :
    (s.waitingInput p aa (ans :: rest) 0).answerInput p aa = (s.setInputs (ans :: rest)).answerInput p aa := by
  cases ans with
  | value v => rfl
  | fail => rfl
  | delay => exact absurd rfl hans

/-- A transaction that completes ends alike from the advance and from a wait. -/
theorem State.answerOutput_waitingOutput {ans : OutAnswer} (hans : ans ≠ .delay) (rest : List OutAnswer) :
    (s.waitingOutput p aa v (ans :: rest) 0).answerOutput p aa v =
      (s.setOutAnswers (ans :: rest)).answerOutput p aa v := by
  cases ans with
  | ok => rfl
  | fail => rfl
  | delay => exact absurd rfl hans

/-- After any number of delays a fetched INP has the outcome of the instruction with the answer at once. -/
theorem core_run_inp_of_delays {n : Nat} {ans : InAnswer} {rest : List InAnswer} (hs : s.status = .running)
    (hstep : step s = exec (.inp aa) s) (hans : ans ≠ .delay) (hin : s.inputs = List.replicate n .delay ++ ans :: rest) :
    Sys2Proof.core.run (n + 1) s = exec (.inp aa) (s.setInputs (ans :: rest)) := by
  cases n with
  | zero =>
    have hprompt : s.setInputs (ans :: rest) = s := congrArg s.setInputs hin.symm
    rw [core_run_one, hstep, hprompt]
  | succ n =>
    have hwait : step s = .next (s.advance.waitingInput s.pc aa (ans :: rest) n) :=
      hstep.trans (State.answerInput_delay (s := s.advance) hin)
    have hend : step (s.advance.waitingInput s.pc aa (ans :: rest) 0) = exec (.inp aa) (s.setInputs (ans :: rest)) :=
      (step_waitingInput (s := s.advance) hs (ans :: rest) 0).trans (State.answerInput_waitingInput hans rest)
    rw [core_run_of_step hwait, ← hend]
    exact core_run_chain (fun k => step_waitingInput (s := s.advance) hs (ans :: rest) (k + 1)) n

/-- After any number of delays a fetched OUT has the outcome of the instruction with the answer at once. -/
theorem core_run_out_of_delays {n : Nat} {ans : OutAnswer} {rest : List OutAnswer} (hs : s.status = .running)
    (hstep : step s = exec (.out aa) s) (haa : aa ≤ 99) (hread : s.mem.read aa = some v) (hans : ans ≠ .delay)
    (hout : s.outAnswers = List.replicate n .delay ++ ans :: rest) :
    Sys2Proof.core.run (n + 1) s = exec (.out aa) (s.setOutAnswers (ans :: rest)) := by
  cases n with
  | zero =>
    have hprompt : s.setOutAnswers (ans :: rest) = s := congrArg s.setOutAnswers hout.symm
    rw [core_run_one, hstep, hprompt]
  | succ n =>
    have hwait : step s = .next (s.advance.waitingOutput s.pc aa v (ans :: rest) n) :=
      (hstep.trans (exec_out_of_read haa hread)).trans (State.answerOutput_delay (s := s.advance) hout)
    have hend : step (s.advance.waitingOutput s.pc aa v (ans :: rest) 0) =
        exec (.out aa) (s.setOutAnswers (ans :: rest)) := by
      rw [exec_out_of_read (s := s.setOutAnswers (ans :: rest)) haa hread]
      exact (step_waitingOutput (s := s.advance) hs (ans :: rest) 0).trans (State.answerOutput_waitingOutput hans rest)
    rw [core_run_of_step hwait, ← hend]
    exact core_run_chain (fun k => step_waitingOutput (s := s.advance) hs (ans :: rest) (k + 1)) n

/-- Settles O23: the outcome is `core_run_inp_of_delays` and `core_run_out_of_delays`; each completing answer ends the
transaction, in Running or in F3 or F4. -/
theorem delayedAnswerGivesThePromptResult : Obligations.DelayedAnswerGivesThePromptResult := by
  refine ⟨fun n s aa ans rest hs hp haa hacc hread hans hin => ?_,
    fun n s aa v ans rest hs hp haa hacc hread hv hans hout => ?_⟩
  · have hstep := step_of_encode hs hp hread ((wellFormed_inp aa).mpr haa)
    refine ⟨core_run_inp_of_delays hs.1 hstep hans hin, ?_⟩
    cases ans with
    | value x => exact ⟨_, State.storeOperand_of_inDomain haa hacc, rfl, fun _ => hs.1, nofun⟩
    | fail => exact ⟨_, rfl, rfl, absurd rfl, fun _ => by rw [State.raise_status, encode_inp]⟩
    | delay => exact absurd rfl hans
  · have hstep := step_of_encode hs hp hread ((wellFormed_out aa).mpr haa)
    refine ⟨core_run_out_of_delays hs.1 hstep haa hv hans hout, ?_⟩
    have hexec := exec_out_of_read (s := s.setOutAnswers (ans :: rest)) haa hv
    cases ans with
    | ok => exact ⟨_, hexec, rfl, fun _ => hs.1, nofun⟩
    | fail => exact ⟨_, hexec, rfl, absurd rfl, fun _ => by rw [State.raise_status, encode_out]; rfl⟩
    | delay => exact absurd rfl hans

end Sys2Proof.Machine
end

section
/-! PROOFS. A legal core always goes on (spec/40_cycle.md section 5): from power-on, in every step of the invariant, and so
in every launched run. -/

namespace Sys2Proof.Machine

variable {s : State}

/-- Settles O35: at power-on no cell is written and nothing is in progress. -/
theorem resetSatisfiesTheInvariant : Obligations.ResetSatisfiesTheInvariant :=
  ⟨⟨by decide, by decide, by decide, rfl, nofun, rfl, rfl⟩, rfl, rfl⟩

/-! ### Progress of one step -/

theorem State.answerInput_progress {p aa : Nat} (haa : aa ≤ 99) : ∃ t, s.answerInput p aa = .next t := by
  match hin : s.inputs with
  | [] => exact ⟨_, State.answerInput_nil hin⟩
  | .delay :: _ => exact ⟨_, State.answerInput_delay hin⟩
  | .fail :: _ => exact ⟨_, State.answerInput_fail hin⟩
  | .value _ :: _ =>
    exact ⟨_, (State.answerInput_value hin).trans (State.storeThen_of_lt (Nat.lt_succ_of_le haa))⟩

theorem State.answerOutput_progress (p aa : Nat) (v : Int) : ∃ t, s.answerOutput p aa v = .next t := by
  obtain ⟨t, ht, -⟩ := s.answerOutput_next p aa v
  exact ⟨t, ht⟩

theorem execTac_progress (aa : Nat) : ∃ t, execTac aa s = .next t := by
  unfold execTac
  split
  · exact ⟨_, rfl⟩
  · exact ⟨_, rfl⟩

/-- On a full memory a well-formed instruction has an operand to read and a cell to write. -/
theorem exec_progress {i : Instr} (hwf : WellFormed i) (hfull : s.mem.full = true) : ∃ t, exec i s = .next t := by
  have haddr : i.address ≤ 99 := i.address_le hwf
  have hlt : i.address < 100 := Nat.lt_succ_of_le haddr
  obtain ⟨v, hread⟩ := Memory.read_of_full hfull hlt
  cases i with
  | inp aa => exact State.answerInput_progress haddr
  | cla aa => exact ⟨_, exec_cla_of_read haddr hread⟩
  | add aa => exact ⟨_, exec_add_of_read haddr hread⟩
  | tac aa => exact execTac_progress aa
  | sft l r => exact ⟨_, exec_sft l r s⟩
  | out aa =>
    obtain ⟨t, ht⟩ := s.advance.answerOutput_progress s.pc aa v
    exact ⟨t, (exec_out_of_read haddr hread).trans ht⟩
  | sto aa => exact ⟨_, State.storeThen_of_lt hlt⟩
  | sub aa => exact ⟨_, exec_sub_of_read haddr hread⟩
  | jmp aa => exact ⟨_, rfl⟩
  | hrs aa => exact ⟨_, rfl⟩

theorem Inv.resume_progress {x : Transaction} (h : Inv s) (hheld : s.held = some x) : ∃ t, s.resume x = .next t := by
  cases x with
  | input p aa =>
    obtain ⟨-, -, haa, -, -⟩ := (State.heldLegal_input_iff hheld).mp h.held_legal
    exact State.answerInput_progress haa
  | output p aa v => exact State.answerOutput_progress p aa v

/-- A Running core of the invariant waits, faults or executes, but never stops the model. -/
theorem Inv.running_progress (h : Inv s) (hs : s.status = .running) : ∃ t, step s = .next t := by
  cases hheld : s.held with
  | some x =>
    rw [step_of_held hs hheld]
    exact h.resume_progress hheld
  | none =>
    rcases Nat.lt_or_ge s.pc 100 with hp | hp
    · obtain ⟨w, hread⟩ := Memory.read_of_full (h.mem_full hs) hp
      cases hd : decode w with
      | error e =>
        obtain ⟨hw, -⟩ := decode_error hd
        exact ⟨_, step_of_illegal ⟨hs, hheld⟩ (Nat.le_of_lt_succ hp) hread hw⟩
      | ok i =>
        obtain ⟨-, -, hwf, -⟩ := decode_ok hd
        rw [step_of_decode hs hheld hp hread hd]
        exact exec_progress hwf (h.mem_full hs)
    · exact ⟨_, step_of_past_end ⟨hs, hheld⟩ hp⟩

/-- A START on a legal memory is refused only when some cell has not been written. -/
theorem Inv.start_progress (h : Inv s) {entry : Int} (hfull : 0 ≤ entry → entry ≤ 99 → s.mem.full = true) :
    ∃ t, s.start entry = .next t := by
  by_cases hentry : entry < 0 ∨ 99 < entry
  · exact ⟨_, State.start_of_out_of_range hentry⟩
  · obtain ⟨h₀, h₁⟩ := not_or.mp hentry
    have h₀ := not_lt.mp h₀
    have h₁ := not_lt.mp h₁
    exact ⟨_, State.start_of_valid h₀ h₁ (hfull h₀ h₁) (Memory.length_le_of_wf h.mem_wf) h.mem_domain⟩

/-- Settles O37: a Running core by `Inv.running_progress`, a quiescent one by the move the host makes next. -/
theorem legalCoreAlwaysSteps : Obligations.LegalCoreAlwaysSteps := by
  refine fun s h => ⟨h.running_progress, fun hq hwrite hstart => ?_⟩
  rw [step_of_quiescent hq]
  match hmoves : s.hostMoves with
  | [] => exact ⟨s, State.hostTurn_nil hmoves⟩
  | .write a v :: rest =>
    obtain ⟨ha, hv⟩ := hwrite a v rest hmoves
    exact ⟨_, State.hostTurn_write hmoves ha hv⟩
  | .start entry :: rest =>
    rw [State.hostTurn_start hmoves]
    exact (h.setHostMoves rest).start_progress (hstart entry rest hmoves)

/-! ### Whole runs -/

/-- With no host move pending a core of the invariant steps to another such core. -/
theorem Inv.step_of_no_moves (h : Inv s) (hmoves : s.hostMoves = []) :
    ∃ t, step s = .next t ∧ Inv t ∧ t.hostMoves = [] := by
  by_cases hs : s.status = .running
  · obtain ⟨t, ht⟩ := h.running_progress hs
    exact ⟨t, ht, everyStepKeepsTheInvariant s t h ht, (step_hostMoves_of_running hs ht).trans hmoves⟩
  · exact ⟨s, (step_of_not_running hs).trans (State.hostTurn_nil hmoves), h, hmoves⟩

theorem Inv.run_of_no_moves (k : Nat) (h : Inv s) (hmoves : s.hostMoves = []) :
    ∃ t, Sys2Proof.core.run k s = .next t ∧ Inv t := by
  induction k generalizing s with
  | zero => exact ⟨s, rfl, h⟩
  | succ k ih =>
    obtain ⟨u, hu, hinv, hmoves'⟩ := h.step_of_no_moves hmoves
    rw [core_run_of_step hu]
    exact ih hinv hmoves'

/-- A host turn takes the move at the head of the list. -/
theorem State.hostTurn_hostMoves {t : State} (h : s.hostTurn = .next t) : t.hostMoves = s.hostMoves.tail := by
  rcases State.hostTurn_next h with ⟨hmoves, rfl⟩ | ⟨_, _, _, hmoves, -, -, rfl⟩ | ⟨_, _, hmoves, -, rfl⟩ |
    ⟨_, _, hmoves, -, -, -, -, -, rfl⟩ <;> rw [hmoves]
  · rfl
  · rfl
  · rfl
  · rfl

/-- Settles O38: the START is the only move, so after the first step the run goes on by itself
(`Inv.run_of_no_moves`). -/
theorem launchedRunNeverStops : Obligations.LaunchedRunNeverStops := by
  intro k s entry h hq hfull hmoves
  cases k with
  | zero => exact ⟨s, rfl, h⟩
  | succ k =>
    have hturn := State.hostTurn_start hmoves
    obtain ⟨t, ht⟩ := (h.setHostMoves []).start_progress (entry := entry) fun _ _ => hfull
    have hstep : step s = .next t := by rw [step_of_quiescent hq, hturn, ht]
    have hnone : t.hostMoves = [] := by rw [State.hostTurn_hostMoves (hturn.trans ht), hmoves]; rfl
    rw [core_run_of_step hstep]
    exact (everyStepKeepsTheInvariant s t h hstep).run_of_no_moves k hnone

end Sys2Proof.Machine
end

section
/-! PROOFS. What changes the status, and the faults of a run (spec/10_state.md section 5; spec/60_exceptions.md sections 1
and 2). -/

namespace Sys2Proof.Machine

variable {s t : State}

/-- A transaction leaves the status alone or takes its fault. -/
theorem State.resume_status {x : Transaction} (h : s.resume x = .next t) :
    t.status = s.status ∨ ∃ code fpc fword, t.status = .faulted code fpc fword := by
  cases x with
  | input p aa =>
    rcases State.answerInput_next h with ⟨-, rfl⟩ | ⟨_, -, rfl⟩ | ⟨_, -, rfl⟩ | ⟨_, _, -, -, rfl⟩
    · exact .inl rfl
    · exact .inl rfl
    · exact .inr ⟨_, _, _, rfl⟩
    · exact .inl rfl
  | output p aa v =>
    rcases State.answerOutput_cases h with ⟨-, rfl⟩ | ⟨_, -, rfl⟩ | ⟨_, -, rfl⟩ | ⟨_, -, rfl⟩
    · exact .inl rfl
    · exact .inl rfl
    · exact .inr ⟨_, _, _, rfl⟩
    · exact .inl rfl

/-- An instruction leaves the status alone, halts as HRS does, or takes the fault of its transaction. -/
theorem exec_status {i : Instr} (h : exec i s = .next t) :
    t.status = s.status ∨ (t.status = .halted ∧ ∃ aa, i = .hrs aa) ∨
    ∃ code fpc fword, t.status = .faulted code fpc fword := by
  rcases exec_next h with ⟨_, _, -, rfl⟩ | ⟨_, -, -, rfl⟩ | ⟨_, -, rfl⟩ | ⟨aa, rfl, rfl⟩ | ⟨x, -, hresume⟩
  · exact .inl rfl
  · exact .inl rfl
  · exact .inl rfl
  · exact .inr (.inl ⟨rfl, aa, rfl⟩)
  · exact (State.resume_status (s := s.advance) hresume).imp_right .inr

/-- The four ways a step can change the status: START begins a run or takes F2, HRS halts, a Running core faults. -/
theorem step_status (h : step s = .next t) :
    t.status = s.status ∨
    (s.status ≠ .running ∧ ∃ entry rest, s.hostMoves = .start entry :: rest ∧
      ((t.status = .running ∧ 0 ≤ entry ∧ entry ≤ 99) ∨ t.status = .faulted .startPcOutOfRange entry none)) ∨
    (t.status = .halted ∧ s.fetching ∧ ∃ aa w, s.mem.read s.pc = some w ∧ decode w = .ok (.hrs aa)) ∨
    (s.status = .running ∧ ∃ code fpc fword, t.status = .faulted code fpc fword) := by
  rcases step_next h with ⟨hs, hturn⟩ | ⟨hs, x, -, hresume⟩ | ⟨hs, -, -, rfl⟩ | ⟨hs, -, -, _, _, -, -, rfl⟩ |
    ⟨hs, hheld, -, w, i, hread, hd, hexec⟩
  · rcases State.hostTurn_next hturn with ⟨-, rfl⟩ | ⟨_, _, _, -, -, -, rfl⟩ | ⟨entry, rest, hmoves, -, rfl⟩ |
      ⟨entry, rest, hmoves, h₀, h₁, -, -, -, rfl⟩
    · exact .inl rfl
    · exact .inl rfl
    · exact .inr (.inl ⟨hs, entry, rest, hmoves, .inr rfl⟩)
    · exact .inr (.inl ⟨hs, entry, rest, hmoves, .inl ⟨rfl, h₀, h₁⟩⟩)
  · exact (State.resume_status hresume).imp_right fun hf => .inr (.inr ⟨hs, hf⟩)
  · exact .inr (.inr (.inr ⟨hs, _, _, _, rfl⟩))
  · exact .inr (.inr (.inr ⟨hs, _, _, _, rfl⟩))
  · rcases exec_status hexec with hsame | ⟨hhalt, aa, rfl⟩ | hfault
    · exact .inl hsame
    · exact .inr (.inr (.inl ⟨hhalt, ⟨hs, hheld⟩, aa, w, hread, hd⟩))
    · exact .inr (.inr (.inr ⟨hs, hfault⟩))

/-- Settles O39: of the ways `step_status` lists, each clause admits the ones it names. -/
theorem onlyStartRunsAndOnlyHrsHalts : Obligations.OnlyStartRunsAndOnlyHrsHalts := by
  intro s t h hne
  simp only [Status.quiescent_iff, State.endedNormally]
  rcases step_status h with hsame | ⟨-, entry, rest, hmoves, ⟨ht, h₀, h₁⟩ | ht⟩ | ⟨ht, hfetch, hhrs⟩ |
    ⟨hs, code, fpc, fword, ht⟩
  · exact absurd hsame hne
  · simp [ht, hmoves, h₀, h₁]
  · simp [ht, hmoves]
  · exact ⟨by simp [ht], fun _ => ⟨hfetch, hhrs⟩, absurd hfetch.1, by simp [ht]⟩
  · simp [ht, hs]

/-- Of a Running core's input transaction only a failure leaves a fault. -/
theorem State.answerInput_faulted {p aa : Nat} {code : FaultCode} {fpc : Int} {fword : Option Int}
    (hs : s.status = .running) (h : s.answerInput p aa = .next t) (ht : t.status = .faulted code fpc fword) :
    ∃ rest, s.inputs = .fail :: rest ∧ t = (s.setInputs rest).raise .inputFailure p (some (encode (.inp aa))) := by
  rcases State.answerInput_next h with ⟨-, rfl⟩ | ⟨_, -, rfl⟩ | ⟨rest, hin, rfl⟩ | ⟨_, _, -, -, rfl⟩
  · exact nomatch hs.symm.trans ht
  · exact nomatch hs.symm.trans ht
  · exact ⟨rest, hin, rfl⟩
  · exact nomatch hs.symm.trans ht

/-- Of a Running core's output transaction only a failure leaves a fault. -/
theorem State.answerOutput_faulted {p aa : Nat} {v : Int} {code : FaultCode} {fpc : Int} {fword : Option Int}
    (hs : s.status = .running) (h : s.answerOutput p aa v = .next t) (ht : t.status = .faulted code fpc fword) :
    ∃ rest, s.outAnswers = .fail :: rest ∧
      t = (s.setOutAnswers rest).raise .outputFailure p (some (encode (.out aa))) := by
  rcases State.answerOutput_cases h with ⟨-, rfl⟩ | ⟨_, -, rfl⟩ | ⟨rest, hout, rfl⟩ | ⟨_, -, rfl⟩
  · exact nomatch hs.symm.trans ht
  · exact nomatch hs.symm.trans ht
  · exact ⟨rest, hout, rfl⟩
  · exact nomatch hs.symm.trans ht

/-- Of the instructions of a Running core only INP and OUT fault, by their transaction. -/
theorem exec_faulted {i : Instr} {code : FaultCode} {fpc : Int} {fword : Option Int} (hs : s.status = .running)
    (h : exec i s = .next t) (ht : t.status = .faulted code fpc fword) :
    ∃ x, Begins i s x ∧ s.advance.resume x = .next t := by
  rcases exec_next h with ⟨_, _, -, rfl⟩ | ⟨_, -, -, rfl⟩ | ⟨_, -, rfl⟩ | ⟨_, -, rfl⟩ | hx
  · exact nomatch hs.symm.trans ht
  · exact nomatch hs.symm.trans ht
  · exact nomatch hs.symm.trans ht
  · exact nomatch ht
  · exact hx

/-- Settles O40: of the outcomes of a Running step, the two of the fetch and the two failures of a transaction, held or
just begun, leave a fault. -/
theorem everyFaultOfARunIsPrecise : Obligations.EveryFaultOfARunIsPrecise := by
  intro s t code fpc fword h hrun hstep ht
  rcases step_next hstep with ⟨hs, -⟩ | ⟨-, x, hheld, hresume⟩ | ⟨-, hheld, hp, rfl⟩ |
    ⟨-, hheld, hp, w, e, hread, hd, rfl⟩ | ⟨-, hheld, hp, w, i, hread, hd, hexec⟩
  · exact absurd hrun hs
  · cases x with
    | input p aa =>
      obtain ⟨-, -, haa, hpc, hread⟩ := (State.heldLegal_input_iff hheld).mp h.held_legal
      obtain ⟨rest, hin, rfl⟩ := State.answerInput_faulted hrun hresume ht
      cases ht
      exact ⟨rfl, rfl, rfl, rfl, rfl, .inr (.inr (.inl
        ⟨rfl, p, aa, rest, hin, rfl, rfl, haa, hread, rfl, hpc, .inl hheld⟩))⟩
    | output p aa v =>
      obtain ⟨-, -, haa, hpc, hread, -⟩ := (State.heldLegal_output_iff hheld).mp h.held_legal
      obtain ⟨rest, hout, rfl⟩ := State.answerOutput_faulted hrun hresume ht
      cases ht
      exact ⟨rfl, rfl, rfl, rfl, rfl, .inr (.inr (.inr
        ⟨rfl, p, aa, rest, hout, rfl, rfl, haa, hread, rfl, hpc, .inl ⟨v, hheld⟩⟩))⟩
  · have hpc : s.pc = 100 := le_antisymm h.pc_range hp
    cases ht
    exact ⟨rfl, rfl, rfl, rfl, rfl, .inl ⟨rfl, hheld, hpc, hpc, congrArg Nat.cast hpc, rfl⟩⟩
  · obtain ⟨hw, -⟩ := decode_error hd
    have hdom : InDomain w := Memory.inDomain_of_read h.mem_domain hread
    have hneg : w < 0 := hw.resolve_right hdom.2.not_gt
    cases ht
    exact ⟨rfl, rfl, rfl, rfl, rfl, .inr (.inl
      ⟨rfl, hheld, rfl, Nat.le_of_lt_succ hp, rfl, w, hread, hneg, rfl⟩)⟩
  · obtain ⟨-, -, hwf, rfl⟩ := decode_ok hd
    obtain ⟨x, hx, hresume⟩ := exec_faulted hrun hexec ht
    cases x with
    | input p aa =>
      obtain ⟨rfl, rfl⟩ := hx
      obtain ⟨rest, hin, rfl⟩ := State.answerInput_faulted (s := s.advance) hrun hresume ht
      cases ht
      exact ⟨rfl, rfl, rfl, rfl, rfl, .inr (.inr (.inl
        ⟨rfl, s.pc, aa, rest, hin, rfl, rfl, (wellFormed_inp aa).mp hwf, hread, rfl, rfl, .inr ⟨hheld, rfl⟩⟩))⟩
    | output p aa v =>
      obtain ⟨rfl, rfl, -⟩ := hx
      obtain ⟨rest, hout, rfl⟩ := State.answerOutput_faulted (s := s.advance) hrun hresume ht
      cases ht
      exact ⟨rfl, rfl, rfl, rfl, rfl, .inr (.inr (.inr
        ⟨rfl, s.pc, aa, rest, hout, rfl, rfl, (wellFormed_out aa).mp hwf, hread, rfl, rfl, .inr ⟨hheld, rfl⟩⟩))⟩

end Sys2Proof.Machine
end

section
/-! PROOFS. What changes memory, and the frames of the instructions (spec/20_memory.md section 3; spec/40_cycle.md
section 5). -/

namespace Sys2Proof.Machine

variable {s t : State}

/-! ### The writers of memory -/

theorem Memory.eq_of_read_write_ne {m : Memory} {a b : Nat} {v : Int} (h : (m.write a v).read b ≠ m.read b) : b = a :=
  of_not_not fun hb => h (m.read_write_other v hb)

/-- The only cell a transaction can write is the one an INP names. -/
theorem State.resume_writes {x : Transaction} {a : Nat} (h : s.resume x = .next t)
    (hne : t.mem.read a ≠ s.mem.read a) : ∃ p, x = .input p a := by
  cases x with
  | input p aa =>
    rcases State.answerInput_next h with ⟨-, rfl⟩ | ⟨_, -, rfl⟩ | ⟨_, -, rfl⟩ | ⟨_, _, -, -, rfl⟩
    · exact absurd rfl hne
    · exact absurd rfl hne
    · exact absurd rfl hne
    · obtain rfl := Memory.eq_of_read_write_ne hne
      exact ⟨p, rfl⟩
  | output p aa v =>
    rcases State.answerOutput_cases h with ⟨-, rfl⟩ | ⟨_, -, rfl⟩ | ⟨_, -, rfl⟩ | ⟨_, -, rfl⟩ <;> exact absurd rfl hne

theorem exec_writes {i : Instr} {a : Nat} (h : exec i s = .next t) (hne : t.mem.read a ≠ s.mem.read a) :
    i = .sto a ∨ i = .inp a ∨ (a = 99 ∧ ∃ aa, i = .jmp aa) := by
  rcases exec_next h with ⟨_, _, -, rfl⟩ | ⟨aa, rfl, -, rfl⟩ | ⟨aa, rfl, rfl⟩ | ⟨_, -, rfl⟩ | ⟨x, hx, hresume⟩
  · exact absurd rfl hne
  · obtain rfl := Memory.eq_of_read_write_ne hne
    exact .inl rfl
  · exact .inr (.inr ⟨Memory.eq_of_read_write_ne hne, aa, rfl⟩)
  · exact absurd rfl hne
  · obtain ⟨p, rfl⟩ := State.resume_writes (s := s.advance) hresume hne
    exact .inr (.inl hx.1)

theorem State.hostTurn_writes {a : Nat} (h : s.hostTurn = .next t) (hne : t.mem.read a ≠ s.mem.read a) :
    (∃ v rest, s.hostMoves = .write a v :: rest) ∨ (a = 0 ∧ ∃ entry rest, s.hostMoves = .start entry :: rest) := by
  rcases State.hostTurn_next h with ⟨-, rfl⟩ | ⟨b, v, rest, hmoves, -, -, rfl⟩ | ⟨_, _, -, -, rfl⟩ |
    ⟨entry, rest, hmoves, -, -, -, -, -, rfl⟩
  · exact absurd rfl hne
  · obtain rfl := Memory.eq_of_read_write_ne hne
    exact .inl ⟨v, rest, hmoves⟩
  · exact absurd rfl hne
  · exact .inr ⟨Memory.eq_of_read_write_ne hne, entry, rest, hmoves⟩

/-- Settles O41: what a host turn, a transaction and an instruction can write (`State.hostTurn_writes`,
`State.resume_writes`, `exec_writes`). -/
theorem onlyTheFourWritersChangeMemory : Obligations.OnlyTheFourWritersChangeMemory := by
  intro s t a h hne
  rcases step_next h with ⟨hs, hturn⟩ | ⟨hs, x, hheld, hresume⟩ | ⟨-, -, -, rfl⟩ | ⟨-, -, -, _, _, -, -, rfl⟩ |
    ⟨hs, hheld, -, w, i, hread, hd, hexec⟩
  · exact .inr (.inr ⟨Status.quiescent_iff.mpr hs, State.hostTurn_writes hturn hne⟩)
  · obtain ⟨p, rfl⟩ := State.resume_writes hresume hne
    exact .inr (.inl ⟨hs, p, hheld⟩)
  · exact absurd rfl hne
  · exact absurd rfl hne
  · refine .inl ⟨⟨hs, hheld⟩, w, hread, ?_⟩
    rcases exec_writes hexec hne with rfl | rfl | ⟨rfl, aa, rfl⟩
    · exact .inl hd
    · exact .inr (.inl hd)
    · exact .inr (.inr ⟨rfl, aa, hd⟩)

/-! ### The frames -/

/-- Settles O42: each of the six answers the state with another acc, pc or, for HRS, status. -/
theorem registerInstructionsFrame : Obligations.RegisterInstructionsFrame := by
  intro i aa l r s t hi hacc h
  rcases hi with rfl | rfl | rfl | rfl | rfl | rfl
  · obtain ⟨-, v, -, rfl⟩ := execCla_next h
    simp
  · obtain ⟨-, v, -, rfl⟩ := execAdd_next h
    simp
  · obtain ⟨-, v, -, rfl⟩ := execSub_next h
    simp
  · obtain rfl := execSft_next h
    simp
  · rcases execTac_next h with ⟨-, rfl⟩ | ⟨-, rfl⟩
    · simp [red_of_inDomain hacc]
    · simp [red_of_inDomain hacc]
  · obtain rfl := execHrs_next h
    simp

/-- Settles O43: each of the three writes one cell at most, and the reduction that ends it leaves acc as it is. -/
theorem storingInstructionsFrame : Obligations.StoringInstructionsFrame := by
  intro aa s t hacc
  have hred : red s.acc = s.acc := red_of_inDomain hacc
  refine ⟨fun h => ?_, fun h => ?_, fun h => ?_⟩
  · obtain ⟨-, rfl⟩ := execSto_next h
    exact ⟨fun b hb => Memory.read_write_other _ _ hb, hred, rfl, rfl, rfl, rfl, rfl, rfl, rfl⟩
  · obtain rfl := execJmp_next h
    exact ⟨fun b hb => Memory.read_write_other _ _ hb, hred, rfl, rfl, rfl, rfl, rfl, rfl, rfl⟩
  · rcases State.answerInput_next (s := s.advance) h with ⟨-, rfl⟩ | ⟨_, -, rfl⟩ | ⟨_, -, rfl⟩ | ⟨_, _, -, -, rfl⟩
    · exact ⟨fun _ _ => rfl, rfl, rfl, rfl, rfl, .inl rfl⟩
    · exact ⟨fun _ _ => rfl, rfl, rfl, rfl, rfl, .inl rfl⟩
    · exact ⟨fun _ _ => rfl, rfl, rfl, rfl, rfl, .inr (by rw [State.raise_status, encode_inp])⟩
    · exact ⟨fun b hb => Memory.read_write_other _ _ hb, hred, rfl, rfl, rfl, .inl rfl⟩

/-- Settles O44: of the four outcomes of the transaction only the failure changes the status, and only the completion
the history. -/
theorem outFrame : Obligations.OutFrame := by
  intro aa s t hacc h
  obtain ⟨-, v, hread, hout⟩ := execOut_next h
  rcases State.answerOutput_cases hout with ⟨-, rfl⟩ | ⟨_, -, rfl⟩ | ⟨_, -, rfl⟩ | ⟨_, -, rfl⟩
  · exact ⟨fun _ => rfl, rfl, rfl, rfl, rfl, .inl rfl, .inl rfl⟩
  · exact ⟨fun _ => rfl, rfl, rfl, rfl, rfl, .inl rfl, .inl rfl⟩
  · exact ⟨fun _ => rfl, rfl, rfl, rfl, rfl, .inr (by rw [State.raise_status, encode_out]), .inl rfl⟩
  · exact ⟨fun _ => rfl, red_of_inDomain hacc, rfl, rfl, rfl, .inl rfl, .inr ⟨v, hread, rfl⟩⟩

/-! ### The program counter -/

theorem State.resume_pc {x : Transaction} (h : s.resume x = .next t) : t.pc = s.pc := by
  cases x with
  | input p aa =>
    rcases State.answerInput_next h with ⟨-, rfl⟩ | ⟨_, -, rfl⟩ | ⟨_, -, rfl⟩ | ⟨_, _, -, -, rfl⟩ <;> rfl
  | output p aa v =>
    rcases State.answerOutput_cases h with ⟨-, rfl⟩ | ⟨_, -, rfl⟩ | ⟨_, -, rfl⟩ | ⟨_, -, rfl⟩ <;> rfl

/-- The seven instructions that only advance do so whatever their port answers. -/
theorem exec_pc_of_sequential {i : Instr} {aa l r : Nat}
    (hi : i = .inp aa ∨ i = .cla aa ∨ i = .add aa ∨ i = .sft l r ∨ i = .out aa ∨ i = .sto aa ∨ i = .sub aa)
    (h : exec i s = .next t) : t.pc = s.pc + 1 := by
  rcases hi with rfl | rfl | rfl | rfl | rfl | rfl | rfl
  · exact State.resume_pc (s := s.advance) (x := .input s.pc aa) h
  · obtain ⟨-, v, -, rfl⟩ := execCla_next h
    rfl
  · obtain ⟨-, v, -, rfl⟩ := execAdd_next h
    rfl
  · obtain rfl := execSft_next h
    rfl
  · obtain ⟨-, v, -, hout⟩ := execOut_next h
    exact State.resume_pc (s := s.advance) (x := .output s.pc aa v) hout
  · obtain ⟨-, rfl⟩ := execSto_next h
    rfl
  · obtain ⟨-, v, -, rfl⟩ := execSub_next h
    rfl

theorem execTac_pc {aa : Nat} (h : exec (.tac aa) s = .next t) :
    (s.acc < 0 → t.pc = aa) ∧ (0 ≤ s.acc → t.pc = s.pc + 1) := by
  rcases execTac_next h with ⟨hneg, rfl⟩ | ⟨hnonneg, rfl⟩
  · exact ⟨fun _ => rfl, fun hnonneg => absurd hneg hnonneg.not_gt⟩
  · exact ⟨fun hneg => absurd hneg hnonneg.not_gt, fun _ => rfl⟩

/-- Settles O27: the two faults of the fetch leave pc; after a decode the step is exec, whose rows of the table are
`exec_pc_of_sequential`, `execTac_pc` and the outcomes of JMP and HRS. -/
theorem pcAfterEachStep : Obligations.PcAfterEachStep := by
  intro s t _ hs h
  refine ⟨fun hp => ?_, fun w hp hread => ?_⟩
  · rw [step_of_past_end hs hp.ge] at h
    cases h
    exact hp
  · have hexec : ∀ i, decode w = .ok i → exec i s = .next t := fun i hd =>
      (step_of_decode hs.1 hs.2 (Nat.lt_succ_of_le hp) hread hd).symm.trans h
    refine ⟨fun hw => ?_, fun i aa l r hd hi => exec_pc_of_sequential hi (hexec i hd),
      fun aa hd => execTac_pc (hexec _ hd), fun aa hd => ?_, fun aa hd => ?_⟩
    · rw [step_of_illegal hs hp hread hw] at h
      cases h
      rfl
    · obtain rfl := execJmp_next (hexec _ hd)
      exact ⟨rfl, Memory.read_write_same _ _ _⟩
    · obtain rfl := execHrs_next (hexec _ hd)
      exact ⟨rfl, rfl⟩

end Sys2Proof.Machine
end

section
/-! PROOFS. The word JMP stores, as an instruction (spec/44_control.md sections 3 and 5). -/

namespace Sys2Proof.Machine

/-- The return word of a JMP at a cell below 99 is the jump to the cell after it. -/
theorem decode_returnWord {n : Nat} (hn : n ≤ 99) : decode (returnWord n) = .ok (.jmp n) := by
  have henc : encode (.jmp n) = returnWord n := by
    simp [encode, Instr.opcode, Instr.address, returnWord]
  exact decode_eq_ok_iff.mpr ⟨(wellFormed_jmp n).mpr hn, henc⟩

/-- Settles O16: `decode_returnWord` below cell 99, and the word 900 at cell 99. -/
theorem returnWordDecodesToJumpBack : Obligations.ReturnWordDecodesToJumpBack := by
  intro s t aa hp h
  obtain rfl := execJmp_next h
  refine ⟨returnWord (s.pc + 1), Memory.read_write_same _ _ _, fun hlt => decode_returnWord hlt, fun heq => ?_⟩
  rw [heq]
  rfl

/-- Settles O17: the fetched return word is executed as the jump it decodes to. -/
theorem executedReturnWordResumesCaller : Obligations.ExecutedReturnWordResumesCaller := by
  intro s c hs hacc hp hc hread
  have hstep := step_of_decode hs.1 hs.2 (Nat.lt_succ_of_le hp) hread (decode_returnWord hc)
  rw [exec_jmp_of_inDomain hacc] at hstep
  refine ⟨_, hstep, rfl, rfl, hs.1, ?_⟩
  rw [State.setMem_mem, Memory.read_write_same, returnWord_succ]

end Sys2Proof.Machine
end

section
/-! PROOFS. Overflow and the digit shift (spec/42_accumulator.md section 2; spec/43_shift.md). -/

namespace Sys2Proof.Machine

/-! ### Overflow -/

/-- The reduction commutes with the sign. -/
theorem red_neg (v : Int) : red (-v) = -red v := Int.neg_tmod v 1000

/-- The table of what a sum or difference of two values of D leaves in acc. -/
theorem red_overflow {v : Int} (hlow : -1998 ≤ v) (hhigh : v ≤ 1998) :
    (InDomain v → red v = v) ∧ (1000 ≤ v → red v = v - 1000 ∧ 0 ≤ red v) ∧
    (v ≤ -1000 → red v = v + 1000 ∧ red v ≤ 0) := by
  rcases red_cases v with ⟨hnonneg, hred⟩ | ⟨hneg, hred⟩
  · exact ⟨red_of_inDomain, fun _ => by omega, fun _ => by omega⟩
  · exact ⟨red_of_inDomain, fun _ => by omega, fun _ => by omega⟩

/-- Settles O6: `red_overflow` for the exact sum and the exact difference, and `red_neg`. -/
theorem overflowDropsThousandsAndKeepsSign : Obligations.OverflowDropsThousandsAndKeepsSign := by
  refine ⟨fun s aa m haa hread hm hacc => ?_, red_neg⟩
  obtain ⟨hm₀, hm₁⟩ := hm
  obtain ⟨hacc₀, hacc₁⟩ := hacc
  obtain ⟨hsum, hsumOver, hsumUnder⟩ := red_overflow (v := s.acc + m) (by omega) (by omega)
  exact ⟨_, _, exec_add_of_read haa hread, exec_sub_of_read haa hread, hsum, hsumOver, hsumUnder,
    red_overflow (v := s.acc - m) (by omega) (by omega)⟩

/-! ### The digit shift -/

section Signed

variable {g x : Int} (hg : g = 1 ∨ g = -1) (hx : 0 ≤ x)
include hg hx

/-- The reduction keeps the sign and acts on the magnitude. -/
theorem red_sign_mul : red (g * x) = g * (x % 1000) := by
  have hpos : red x = x % 1000 := Int.tmod_eq_emod_of_nonneg hx
  rcases hg with rfl | rfl
  · rw [one_mul, one_mul, hpos]
  · rw [neg_one_mul, neg_one_mul, red_neg, hpos]

/-- So does the truncating division. -/
theorem tdiv_sign_mul (k : Int) : (g * x).tdiv k = g * (x / k) := by
  have hpos : x.tdiv k = x / k := Int.tdiv_eq_ediv_of_nonneg hx
  rcases hg with rfl | rfl
  · rw [one_mul, one_mul, hpos]
  · rw [neg_one_mul, neg_one_mul, Int.neg_tdiv, hpos]

end Signed

/-- With the left count the larger by `d`, the digits move left by `d` places. -/
theorem digitShift_left (r d : Nat) (a : Int) : digitShift (r + d) r a = a * 10 ^ d := by
  have hpow : (10 : Int) ^ r ≠ 0 := pow_ne_zero r (by decide)
  rw [digitShift, tdiv, pow_add, mul_left_comm, Int.mul_tdiv_cancel_left _ hpow]

/-- With the right count the larger by `d`, the digits move right by `d` places. -/
theorem digitShift_right (l d : Nat) (a : Int) : digitShift l (l + d) a = a.tdiv (10 ^ d) := by
  rw [digitShift, tdiv, pow_add, mul_comm a, Int.mul_tdiv_mul_of_pos _ _ (pow_pos (by decide) l)]

/-- Left by `d` places: the digits pushed past the hundreds are lost. -/
theorem red_digitShift_left {g x : Int} (hg : g = 1 ∨ g = -1) (hx : 0 ≤ x) (r d : Nat) :
    red (digitShift (r + d) r (g * x)) = g * (x * 10 ^ d % 1000) := by
  have hpow : (0 : Int) ≤ x * 10 ^ d := mul_nonneg hx (pow_nonneg (by decide) d)
  rw [digitShift_left, mul_assoc, red_sign_mul hg hpow]

/-- Right by `d` places: the digits pushed past the units are lost. -/
theorem red_digitShift_right {g x : Int} (hg : g = 1 ∨ g = -1) (hx : 0 ≤ x) (l d : Nat) :
    red (digitShift l (l + d) (g * x)) = g * (x / 10 ^ d % 1000) := by
  have hdiv : 0 ≤ x / 10 ^ d := Int.ediv_nonneg hx (pow_nonneg (by decide) d)
  rw [digitShift_right, tdiv_sign_mul hg hx, red_sign_mul hg hdiv]

/-- Three places or more to the left push every digit out. -/
theorem mul_ten_pow_emod_thousand (x : Int) (k : Nat) : x * 10 ^ (3 + k) % 1000 = 0 := by
  have hdvd : (1000 : Int) ∣ x * 10 ^ (3 + k) := by
    rw [pow_add]
    exact Dvd.dvd.mul_left (Dvd.intro _ rfl) x
  exact Int.emod_eq_zero_of_dvd hdvd

/-- Three places or more to the right push every digit out. -/
theorem ediv_ten_pow_eq_zero {x : Int} (hx : 0 ≤ x) (hx' : x < 1000) (k : Nat) : x / 10 ^ (3 + k) = 0 := by
  have hpow : (10 : Int) ^ 3 ≤ 10 ^ (3 + k) := pow_le_pow_right₀ (by decide) (Nat.le_add_right 3 k)
  exact Int.ediv_eq_zero_of_lt hx (hx'.trans_le hpow)

/-- Settles O12: the two counts are compared, and `red_digitShift_left` or `red_digitShift_right` moves the digits by
their difference. -/
theorem sftMovesTheDigits : Obligations.SftMovesTheDigits := by
  intro s l r g h t u _ _ hg hh₀ hh₁ ht₀ ht₁ hu₀ hu₁ hacc
  have hx : 0 ≤ 100 * h + 10 * t + u := by omega
  have hx' : 100 * h + 10 * t + u < 1000 := by omega
  refine ⟨_, exec_sft l r s, ?_⟩
  simp only [State.setAcc_acc, hacc]
  refine ⟨fun hlr => ?_, fun hlr => ?_, fun hlr => ?_, fun hlr => ?_, fun hlr => ?_, fun hlr => ?_, fun hlr => ?_⟩
  · obtain ⟨k, rfl⟩ := Nat.exists_eq_add_of_le hlr
    rw [add_assoc, red_digitShift_left hg hx, mul_ten_pow_emod_thousand, mul_zero]
  · rw [hlr, red_digitShift_left hg hx]
    congr 1
    omega
  · rw [hlr, red_digitShift_left hg hx]
    congr 1
    omega
  · have hzero := red_digitShift_left hg hx r 0
    rw [add_zero, pow_zero, mul_one, Int.emod_eq_of_lt hx hx'] at hzero
    rw [hlr, hzero]
  · rw [hlr, red_digitShift_right hg hx]
    congr 1
    omega
  · rw [hlr, red_digitShift_right hg hx]
    congr 1
    omega
  · obtain ⟨k, rfl⟩ := Nat.exists_eq_add_of_le hlr
    rw [add_assoc, red_digitShift_right hg hx, ediv_ten_pow_eq_zero hx hx', Int.zero_emod, mul_zero]

end Sys2Proof.Machine
end

section
/-! PROOFS. Determinism (spec/40_cycle.md section 4): a step of a run reads acc, pc, memory, the transaction in progress
and the ports' answers, and START leaves nothing of what was there before but memory (spec/70_reset_and_hazards.md
section 3). -/

namespace Sys2Proof.Machine

/-- Two states agree on everything a step of a run can read, and their histories grew by the same values from the
histories `o` and `o'`. -/
structure Alike (o o' : List Int) (s t : State) : Prop where
  acc : t.acc = s.acc
  pc : t.pc = s.pc
  mem : t.mem = s.mem
  status : t.status = s.status
  held : t.held = s.held
  inputs : t.inputs = s.inputs
  outAnswers : t.outAnswers = s.outAnswers
  output : ∃ new, s.output = o ++ new ∧ t.output = o' ++ new

/-- Whenever the first outcome is a next state the second is one alike. -/
def AlikeResults (o o' : List Int) (r r' : Result) : Prop :=
  ∀ s, r = .next s → ∃ t, r' = .next t ∧ Alike o o' s t

variable {o o' : List Int} {s t : State}

theorem AlikeResults.next (h : Alike o o' s t) : AlikeResults o o' (.next s) (.next t) := by
  rintro _ ⟨⟩
  exact ⟨t, rfl, h⟩

/-! ### The operations keep two states alike -/

theorem Alike.setAcc (h : Alike o o' s t) (x : Int) : Alike o o' (s.setAcc x) (t.setAcc x) := { h with acc := rfl }

theorem Alike.setPc (h : Alike o o' s t) (n : Nat) : Alike o o' (s.setPc n) (t.setPc n) := { h with pc := rfl }

theorem Alike.setMem (h : Alike o o' s t) (m : Memory) : Alike o o' (s.setMem m) (t.setMem m) := { h with mem := rfl }

theorem Alike.setStatus (h : Alike o o' s t) (st : Status) : Alike o o' (s.setStatus st) (t.setStatus st) :=
  { h with status := rfl }

theorem Alike.setHeld (h : Alike o o' s t) (x : Option Transaction) : Alike o o' (s.setHeld x) (t.setHeld x) :=
  { h with held := rfl }

theorem Alike.setInputs (h : Alike o o' s t) (l : List InAnswer) : Alike o o' (s.setInputs l) (t.setInputs l) :=
  { h with inputs := rfl }

/-- The count of inputs is not read, so it need not agree. -/
theorem Alike.setInputsUsed (h : Alike o o' s t) (m n : Nat) :
    Alike o o' (s.setInputsUsed m) (t.setInputsUsed n) := { h with }

theorem Alike.setOutAnswers (h : Alike o o' s t) (l : List OutAnswer) :
    Alike o o' (s.setOutAnswers l) (t.setOutAnswers l) := { h with outAnswers := rfl }

theorem Alike.append (h : Alike o o' s t) (v : Int) :
    Alike o o' (s.setOutput (s.output ++ [v])) (t.setOutput (t.output ++ [v])) := by
  obtain ⟨new, hs, ht⟩ := h.output
  exact { h with output := ⟨new ++ [v], by simp [hs], by simp [ht]⟩ }

theorem Alike.advance (h : Alike o o' s t) : Alike o o' s.advance t.advance := by
  rw [State.advance, State.advance, h.pc]
  exact h.setPc _

theorem Alike.raise (h : Alike o o' s t) (code : FaultCode) (fpc : Int) (fword : Option Int) :
    Alike o o' (s.raise code fpc fword) (t.raise code fpc fword) := (h.setStatus _).setHeld _

theorem Alike.finish (h : Alike o o' s t) : AlikeResults o o' s.finish t.finish := by
  rw [State.finish, State.finish, h.acc]
  exact .next (h.setAcc _)

theorem Alike.loadThen (h : Alike o o' s t) (a : Nat) {k k' : Int → Result}
    (hk : ∀ v, AlikeResults o o' (k v) (k' v)) : AlikeResults o o' (s.loadThen a k) (t.loadThen a k') := by
  intro u hu
  obtain ⟨ha, v, hread, hv⟩ := State.loadThen_next hu
  obtain ⟨u', hu', halike⟩ := hk v u hv
  rw [← h.mem] at hread
  exact ⟨u', (State.loadThen_of_read ha hread).trans hu', halike⟩

theorem Alike.storeThen (h : Alike o o' s t) (a : Nat) (v : Int) {k : State → Result}
    (hk : ∀ {u u'}, Alike o o' u u' → AlikeResults o o' (k u) (k u')) :
    AlikeResults o o' (s.storeThen a v k) (t.storeThen a v k) := by
  intro u hu
  obtain ⟨ha, hu⟩ := State.storeThen_next hu
  rw [State.storeThen_of_lt ha, h.mem]
  exact hk (h.setMem _) u hu

/-! ### A step of two running states that are alike -/

theorem Alike.answerInput (h : Alike o o' s t) (p aa : Nat) :
    AlikeResults o o' (s.answerInput p aa) (t.answerInput p aa) := by
  unfold State.answerInput
  rw [h.inputs]
  split
  · exact .next (h.setHeld _)
  · exact .next ((h.setInputs _).setHeld _)
  · exact .next ((h.setInputs _).raise _ _ _)
  · exact (((h.setInputs _).setInputsUsed _ _).setHeld none).storeThen _ _ Alike.finish

theorem Alike.answerOutput (h : Alike o o' s t) (p aa : Nat) (v : Int) :
    AlikeResults o o' (s.answerOutput p aa v) (t.answerOutput p aa v) := by
  unfold State.answerOutput
  rw [h.outAnswers]
  split
  · exact .next (h.setHeld _)
  · exact .next ((h.setOutAnswers _).setHeld _)
  · exact .next ((h.setOutAnswers _).raise _ _ _)
  · exact (((h.setOutAnswers _).append v).setHeld none).finish

theorem Alike.resume (h : Alike o o' s t) (x : Transaction) : AlikeResults o o' (s.resume x) (t.resume x) := by
  cases x with
  | input p aa => exact h.answerInput p aa
  | output p aa v => exact h.answerOutput p aa v

/-- An instruction reads acc and pc of the state it was fetched in, and one cell. -/
theorem Alike.exec (h : Alike o o' s t) (i : Instr) : AlikeResults o o' (exec i s) (exec i t) := by
  have hadv := h.advance
  cases i with
  | inp aa =>
    simp only [Machine.exec, execInp, h.pc]
    exact hadv.answerInput s.pc aa
  | cla aa => exact hadv.loadThen aa fun v => (hadv.setAcc v).finish
  | add aa =>
    simp only [Machine.exec, execAdd, h.acc]
    exact hadv.loadThen aa fun v => (hadv.setAcc _).finish
  | tac aa =>
    simp only [Machine.exec, execTac, h.acc]
    split
    · exact (hadv.setPc aa).finish
    · exact hadv.finish
  | sft l r =>
    simp only [Machine.exec, execSft, h.acc]
    exact (hadv.setAcc _).finish
  | out aa =>
    simp only [Machine.exec, execOut, h.pc]
    exact hadv.loadThen aa fun v => hadv.answerOutput s.pc aa v
  | sto aa =>
    simp only [Machine.exec, execSto, h.acc]
    exact hadv.storeThen aa _ Alike.finish
  | sub aa =>
    simp only [Machine.exec, execSub, h.acc]
    exact hadv.loadThen aa fun v => (hadv.setAcc _).finish
  | jmp aa =>
    simp only [Machine.exec, execJmp, hadv.pc]
    exact hadv.storeThen _ _ fun hu => (hu.setPc aa).finish
  | hrs aa => exact .next ((hadv.setPc aa).setStatus .halted)

/-- The fetch reads pc and the cell it names, in both states the same. -/
theorem Alike.step_of_running (h : Alike o o' s t) (hs : s.status = .running) :
    AlikeResults o o' (step s) (step t) := by
  intro u hu
  have ht : t.status = .running := h.status.trans hs
  rcases step_next hu with ⟨hnot, -⟩ | ⟨-, x, hheld, hresume⟩ | ⟨-, hheld, hp, rfl⟩ |
    ⟨-, hheld, hp, w, e, hread, hd, rfl⟩ | ⟨-, hheld, hp, w, i, hread, hd, hexec⟩
  · exact absurd hs hnot
  · rw [step_of_held ht (h.held.trans hheld)]
    exact h.resume x u hresume
  · rw [← h.pc] at hp ⊢
    exact ⟨_, step_of_past_end ⟨ht, h.held.trans hheld⟩ hp, h.raise _ _ _⟩
  · obtain ⟨hw, -⟩ := decode_error hd
    rw [← h.pc] at hp ⊢
    rw [← h.pc, ← h.mem] at hread
    exact ⟨_, step_of_illegal ⟨ht, h.held.trans hheld⟩ (Nat.le_of_lt_succ hp) hread hw, h.raise _ _ _⟩
  · rw [← h.pc] at hp
    rw [← h.pc, ← h.mem] at hread
    rw [step_of_decode ht (h.held.trans hheld) hp hread hd]
    exact h.exec i u hexec

/-- Settles O45: the two states are alike from their own histories on (`Alike.step_of_running`), so what the step adds to
the one it adds to the other. -/
theorem stepDependsOnlyOnStateAndAnswers : Obligations.StepDependsOnlyOnStateAndAnswers := by
  intro s t s' hs ht hacc hpc hmem hheld hin hout hstep
  have h : Alike s.output t.output s t :=
    ⟨hacc.symm, hpc.symm, hmem.symm, ht.trans hs.symm, hheld.symm, hin.symm, hout.symm, [], by simp, by simp⟩
  obtain ⟨t', hstep', h'⟩ := h.step_of_running hs s' hstep
  refine ⟨t', hstep', h'.acc, h'.pc, h'.mem, h'.status, h'.held, h'.inputs, h'.outAnswers, fun new hnew => ?_⟩
  obtain ⟨added, hs', ht'⟩ := h'.output
  obtain rfl : added = new := List.append_cancel_left (hs'.symm.trans hnew)
  exact ht'

/-! ### Runs from the same image -/

/-- A run begins from memory, the answers and the moves to come; START writes every other field. -/
theorem State.startRun_congr {s t : State} (hmem : s.mem = t.mem) (hin : s.inputs = t.inputs)
    (hout : s.outAnswers = t.outAnswers) (hmoves : s.hostMoves = t.hostMoves) (n : Nat) :
    s.startRun n = t.startRun n := by
  simp [State.startRun, State.setMem, State.setAcc, State.setPc, State.setStatus, State.setHeld, State.setOutput,
    State.setInputsUsed, hmem, hin, hout, hmoves]

/-- Of a START with a valid entry neither the refusal nor the run depends on anything else. -/
theorem State.start_congr {s t : State} {entry : Int} (h₀ : 0 ≤ entry) (h₁ : entry ≤ 99) (hmem : s.mem = t.mem)
    (hin : s.inputs = t.inputs) (hout : s.outAnswers = t.outAnswers) (hmoves : s.hostMoves = t.hostMoves) :
    s.start entry = t.start entry := by
  have hentry : ¬(entry < 0 ∨ 99 < entry) := by omega
  simp only [State.start, if_neg hentry, hmem, State.startRun_congr hmem hin hout hmoves]

/-- Settles O46: the first step of both runs is the START, which answers the same (`State.start_congr`). -/
theorem sameImageAndAnswersGiveTheSameRun : Obligations.SameImageAndAnswersGiveTheSameRun := by
  intro k s t entry rest h₀ h₁ hqs hqt hmem hin hout hms hmt
  have hfirst : step s = step t := by
    rw [step_of_quiescent hqs, step_of_quiescent hqt, State.hostTurn_start hms, State.hostTurn_start hmt]
    exact State.start_congr (s := s.setHostMoves rest) (t := t.setHostMoves rest) h₀ h₁ hmem hin hout rfl
  rw [core_run_succ, core_run_succ, hfirst]

end Sys2Proof.Machine
end

section
/-! PROOFS. Sample words and rejected words (spec/95_test_vectors.md section 2.1; spec/30_encoding.md section 4). -/

namespace Sys2Proof

/-- Settles O1: the decoder evaluates each word to its instruction. -/
theorem sampleWordsDecodeAsTabled : Obligations.SampleWordsDecodeAsTabled :=
  ⟨rfl, rfl, rfl, rfl, rfl, rfl, rfl, rfl, rfl, rfl⟩

/-- Settles O4: a rejected word is out of range (`decode_error`), and the decoder's first test rejects every word that
is. -/
theorem wordsOutsideRangeAreRejected : Obligations.WordsOutsideRangeAreRejected :=
  fun _ => ⟨fun h => (decode_error h).1, Machine.decode_eq_error⟩

end Sys2Proof
end
